-- ==== Sys2Proof/Word.lean ====
section
/-!
DEFINITION. The word, register-index and immediate types (spec/00_scope.md R5, R8) and the narrowing of an exact
integer to a word (R10).
-/

namespace Sys2Proof

/-- A word: registers, addresses, memory words and instructions, XLEN = ILEN = 32 bits (R5, R8). -/
abbrev Word := BitVec 32

/-- A register field of an instruction, 4 bits (R5, R102 to R105). -/
abbrev RegIdx := BitVec 4

/-- An immediate field of an instruction, 16 bits (R5, R107). -/
abbrev Imm16 := BitVec 16

/-- The storage of the register file (R30). NUM_GPR <= 16 of its entries exist; every access checks that (R34). -/
abbrev Regs := Vector Word 16

/-- `s32(n)`: the 32-bit two's-complement word congruent to `n` mod 2^32 (R10). -/
def s32 (n : Int) : Word := BitVec.ofInt 32 n

end Sys2Proof
end

