-- ==== Sys2Proof/Syntax.lean ====
section
/-!
DEFINITION. The instruction set: one constructor per row of spec/opcode_table.json, with the operands the row's
format gives it (spec/30_encoding.md R102 to R110), and the Instruction record that travels through the pipeline
(spec/10_state.md R51, R61).
-/

namespace Sys2Proof

/-- The 26 instructions (R2, R110). An argument is a field of the encoding, in slot order. -/
inductive Instr where
  /-- R300; the imm16 field is decoded and has no effect (R106). -/
  | nop (imm : Imm16)
  | add (dest src1 src2 : RegIdx)
  | sub (dest src1 src2 : RegIdx)
  | mul (dest src1 src2 : RegIdx)
  | div (dest src1 src2 : RegIdx)
  | and (dest src1 src2 : RegIdx)
  | or (dest src1 src2 : RegIdx)
  | xor (dest src1 src2 : RegIdx)
  | not (dest src1 : RegIdx)
  | sll (dest src1 : RegIdx) (imm : Imm16)
  | srl (dest src1 : RegIdx) (imm : Imm16)
  | sra (dest src1 : RegIdx) (imm : Imm16)
  | sllv (dest src1 src2 : RegIdx)
  | addi (dest src1 : RegIdx) (imm : Imm16)
  | movi (dest : RegIdx) (imm : Imm16)
  | movr (dest src1 : RegIdx)
  | ld (dest base : RegIdx) (imm : Imm16)
  /-- `base` is the `dest` slot (the addressing register), `value` the `src1` slot (R109, R245). -/
  | st (base value : RegIdx) (imm : Imm16)
  | bu (imm : Imm16)
  | bl (imm : Imm16)
  /-- R276; the imm16 field is decoded and has no effect (R106). -/
  | ret (imm : Imm16)
  | beq (src1 src2 : RegIdx) (imm : Imm16)
  | bne (src1 src2 : RegIdx) (imm : Imm16)
  | blt (src1 src2 : RegIdx) (imm : Imm16)
  | bgt (src1 src2 : RegIdx) (imm : Imm16)
  /-- R302; the imm16 field is decoded and has no effect (R106). -/
  | eop (imm : Imm16)
  deriving DecidableEq, Repr

/-- The Instruction record (R51). Its opcode, mnemonic, type, unit, dest, src1, src2 and imm are the views
`Instr.opcode`, `Instr.mnem`, `Instr.format`, `Instr.unit`, `Instr.dest`, `Instr.src1`, `Instr.src2` and `Instr.imm`
of `instr`, which is stored once. -/
structure Record where
  instr     : Instr
  /-- Operand values captured at Issue (R150). -/
  val1      : Word := 0
  val2      : Word := 0
  /-- Set by Execute (R154). -/
  wbValue   : Word := 0
  /-- The address the word was fetched from (R59). -/
  fetchLoc  : Word
  predTaken : Bool
  /-- Set when IS_READY says not ready (R152). -/
  depFlag   : Bool := false
  deriving DecidableEq, Repr

/-- NOP_INSTR (R61): what every bubble and every flushed latch holds. -/
def Record.nop : Record := { instr := .nop 0, fetchLoc := 0, predTaken := false }

end Sys2Proof
end

