-- ==== Sys2Proof/Decode.lean ====
section
/-!
DEFINITION. Instruction encoding (spec/30_encoding.md): field layout (R101 to R106), opcode map (R110), units (R111),
decode (R108, R109, R112, R114) and its inverse encode (R113). FIELD_LAYOUT and OPCODE_MAP are parameters, with the
spec's tables as their defaults (spec/00_scope.md R5; spec/92_eei_decisions.md D2, D3).
-/

namespace Sys2Proof

/-- The type tag of an instruction (R51, R58, R102 to R106). -/
inductive Format where
  | RRR | RRI | RR | RI | I
  deriving DecidableEq, Repr

/-- The execution unit of an instruction (R57, R111). -/
inductive ExecUnit where
  | ALU | LSU | BRU
  deriving DecidableEq, Repr

/-- The mnemonic field of the Instruction record (R51), R110's names. -/
inductive Mnem where
  | NOP | ADD | SUB | MUL | DIV | AND | OR | XOR | NOT | SLL | SRL | SRA | SLLV | ADDI | MOVI | MOVR | LD | ST
  | BU | BL | RET | BEQ | BNE | BLT | BGT | EOP
  deriving DecidableEq, Repr

/-! ### What the source fixes: type, unit and fields of each instruction -/

/-- OPCODE_MAP's type column (R110). -/
def Mnem.format : Mnem → Format
  | .ADD | .SUB | .MUL | .DIV | .AND | .OR | .XOR | .SLLV => .RRR
  | .SLL | .SRL | .SRA | .ADDI | .LD | .ST | .BEQ | .BNE | .BLT | .BGT => .RRI
  | .NOT | .MOVR => .RR
  | .MOVI => .RI
  | .NOP | .BU | .BL | .RET | .EOP => .I

/-- Unit assignment (R111). -/
def Mnem.unit : Mnem → ExecUnit
  | .NOP | .ADD | .SUB | .MUL | .DIV | .AND | .OR | .XOR | .NOT | .SLL | .SRL | .SRA | .SLLV | .ADDI => .ALU
  | .MOVI | .MOVR | .LD | .ST => .LSU
  | .BU | .BL | .RET | .BEQ | .BNE | .BLT | .BGT | .EOP => .BRU

/-- BEQ, BNE, BLT, BGT (R109, R277). -/
def Mnem.isCondBranch : Mnem → Bool
  | .BEQ | .BNE | .BLT | .BGT => true
  | _ => false

/-- The mnemonic of an instruction. -/
def Instr.mnem : Instr → Mnem
  | .nop .. => .NOP | .add .. => .ADD | .sub .. => .SUB | .mul .. => .MUL | .div .. => .DIV | .and .. => .AND
  | .or .. => .OR | .xor .. => .XOR | .not .. => .NOT | .sll .. => .SLL | .srl .. => .SRL | .sra .. => .SRA
  | .sllv .. => .SLLV | .addi .. => .ADDI | .movi .. => .MOVI | .movr .. => .MOVR | .ld .. => .LD | .st .. => .ST
  | .bu .. => .BU | .bl .. => .BL | .ret .. => .RET | .beq .. => .BEQ | .bne .. => .BNE | .blt .. => .BLT
  | .bgt .. => .BGT | .eop .. => .EOP

/-- The record's type tag and unit (R57, R58). -/
def Instr.format (i : Instr) : Format := i.mnem.format
def Instr.unit (i : Instr) : ExecUnit := i.mnem.unit

/-- `sext16`: a 16-bit field sign-extended to a word (R10, R107). -/
def sext16 (f : Imm16) : Word := f.signExtend 32

/-! ### The parameters FIELD_LAYOUT and OPCODE_MAP -/

/-- FIELD_LAYOUT (log entry 15): the lowest bit of every field of every format. The widths are the source's: opcode 5,
register 4, immediate 16 bits (R5). -/
structure FieldLayout where
  opcode    : Nat
  rrrDest   : Nat
  rrrSrc1   : Nat
  rrrSrc2   : Nat
  /-- RRI's first register slot: `dest`, or a conditional branch's `src1` (R109). -/
  rriFirst  : Nat
  /-- RRI's second register slot: `src1`, or a conditional branch's `src2` (R109). -/
  rriSecond : Nat
  rriImm    : Nat
  rrDest    : Nat
  rrSrc1    : Nat
  riDest    : Nat
  riImm     : Nat
  iImm      : Nat
  deriving DecidableEq, Repr

/-- The encoding parameters (log entry 15). `opcodeMap` is OPCODE_MAP's opcode and mnemonic columns: the mnemonic of
opcode `k` is its entry `k`. -/
structure Encoding where
  layout    : FieldLayout
  opcodeMap : List Mnem
  deriving DecidableEq, Repr

/-- The spec's FIELD_LAYOUT (R101 to R106). -/
def FieldLayout.spec : FieldLayout where
  opcode := 27
  rrrDest := 23
  rrrSrc1 := 19
  rrrSrc2 := 15
  rriFirst := 23
  rriSecond := 19
  rriImm := 3
  rrDest := 23
  rrSrc1 := 19
  riDest := 23
  riImm := 7
  iImm := 11

/-- The spec's opcode numbers, 0..25 in this order (R110). -/
def opcodeMapSpec : List Mnem :=
  [.NOP, .ADD, .SUB, .MUL, .DIV, .AND, .OR, .XOR, .NOT, .SLL, .SRL, .SRA, .SLLV] ++
  [.ADDI, .MOVI, .MOVR, .LD, .ST, .BU, .BL, .RET, .BEQ, .BNE, .BLT, .BGT, .EOP]

/-- The default encoding: the tables of R101 to R110 (R5). -/
def Encoding.spec : Encoding := { layout := FieldLayout.spec, opcodeMap := opcodeMapSpec }

/-! ### Fields of a word -/

/-- The field of `n` bits whose lowest bit is `lo` (R9). -/
def getField (n lo : Nat) (w : Word) : BitVec n := w.extractLsb' lo n

/-- The word with that field at `v` and every other bit 0. -/
def putField {n : Nat} (lo : Nat) (v : BitVec n) : Word := v.setWidth 32 <<< lo

/-- The fields of a format, each as its lowest bit and its width. -/
def FieldLayout.fields (l : FieldLayout) : Format → List (Nat × Nat)
  | .RRR => [(l.opcode, 5), (l.rrrDest, 4), (l.rrrSrc1, 4), (l.rrrSrc2, 4)]
  | .RRI => [(l.opcode, 5), (l.rriFirst, 4), (l.rriSecond, 4), (l.rriImm, 16)]
  | .RR => [(l.opcode, 5), (l.rrDest, 4), (l.rrSrc1, 4)]
  | .RI => [(l.opcode, 5), (l.riDest, 4), (l.riImm, 16)]
  | .I => [(l.opcode, 5), (l.iImm, 16)]

/-- The bits of the fields in a list. -/
def fieldMask : List (Nat × Nat) → Word
  | [] => 0
  | (lo, n) :: rest => putField lo (BitVec.allOnes n) ||| fieldMask rest

/-- UNUSED_MASK(type), the must-be-0 bits: those in no field of the format (R108, R112; D4). -/
def FieldLayout.unusedMask (l : FieldLayout) (f : Format) : Word := ~~~fieldMask (l.fields f)

/-- The opcode field of a word (R101). -/
def Encoding.opcodeField (e : Encoding) (w : Word) : BitVec 5 := getField 5 e.layout.opcode w

/-- The sign-extended immediate a format gives a word; 0 for RRR and RR (R107). -/
def Encoding.imm (e : Encoding) (f : Format) (w : Word) : Word :=
  match f with
  | .RRR | .RR => 0
  | .RRI => sext16 (getField 16 e.layout.rriImm w)
  | .RI => sext16 (getField 16 e.layout.riImm w)
  | .I => sext16 (getField 16 e.layout.iImm w)

/-- The opcode number of a mnemonic (R110). -/
def Encoding.opcode (e : Encoding) (m : Mnem) : BitVec 5 := BitVec.ofNat 5 (e.opcodeMap.idxOf m)

/-- The mnemonic of an opcode number: N = 26 are defined, 26..31 are illegal (R101, R110, R114). -/
def Encoding.mnem (e : Encoding) (op : BitVec 5) : Option Mnem := e.opcodeMap[op.toNat]?

/-- The record's opcode (R51). -/
def Instr.opcode (e : Encoding) (i : Instr) : BitVec 5 := e.opcode i.mnem

/-! ### Decode (R108, R109, R112) -/

/-- Why a word is no instruction. -/
inductive DecodeReject where
  /-- The opcode field is 26..31 (R114). -/
  | illegalOpcode (w : Word)
  /-- A must-be-0 bit of the word's format is 1 (R108, R115). -/
  | unusedBits (w : Word)
  deriving DecidableEq, Repr

/-- An RRR instruction's fields. -/
def FieldLayout.readRRR (l : FieldLayout) (w : Word) (mk : RegIdx → RegIdx → RegIdx → Instr) : Instr :=
  mk (getField 4 l.rrrDest w) (getField 4 l.rrrSrc1 w) (getField 4 l.rrrSrc2 w)
/-- An RRI instruction's fields, in slot order. -/
def FieldLayout.readRRI (l : FieldLayout) (w : Word) (mk : RegIdx → RegIdx → Imm16 → Instr) : Instr :=
  mk (getField 4 l.rriFirst w) (getField 4 l.rriSecond w) (getField 16 l.rriImm w)
/-- An RR instruction's fields. -/
def FieldLayout.readRR (l : FieldLayout) (w : Word) (mk : RegIdx → RegIdx → Instr) : Instr :=
  mk (getField 4 l.rrDest w) (getField 4 l.rrSrc1 w)
/-- An RI instruction's fields. -/
def FieldLayout.readRI (l : FieldLayout) (w : Word) (mk : RegIdx → Imm16 → Instr) : Instr :=
  mk (getField 4 l.riDest w) (getField 16 l.riImm w)
/-- An I instruction's field. -/
def FieldLayout.readI (l : FieldLayout) (w : Word) (mk : Imm16 → Instr) : Instr :=
  mk (getField 16 l.iImm w)

/-- The instruction a word's fields spell under a mnemonic (R109); the word's unused bits are not looked at. -/
def FieldLayout.read (l : FieldLayout) (w : Word) : Mnem → Instr
  | .NOP => l.readI w .nop
  | .ADD => l.readRRR w .add
  | .SUB => l.readRRR w .sub
  | .MUL => l.readRRR w .mul
  | .DIV => l.readRRR w .div
  | .AND => l.readRRR w .and
  | .OR => l.readRRR w .or
  | .XOR => l.readRRR w .xor
  | .NOT => l.readRR w .not
  | .SLL => l.readRRI w .sll
  | .SRL => l.readRRI w .srl
  | .SRA => l.readRRI w .sra
  | .SLLV => l.readRRR w .sllv
  | .ADDI => l.readRRI w .addi
  | .MOVI => l.readRI w .movi
  | .MOVR => l.readRR w .movr
  | .LD => l.readRRI w .ld
  | .ST => l.readRRI w .st
  | .BU => l.readI w .bu
  | .BL => l.readI w .bl
  | .RET => l.readI w .ret
  | .BEQ => l.readRRI w .beq
  | .BNE => l.readRRI w .bne
  | .BLT => l.readRRI w .blt
  | .BGT => l.readRRI w .bgt
  | .EOP => l.readI w .eop

/-- `decode`, total on words: the opcode first, then the unused bits, then the fields (R112). -/
def decode (e : Encoding) (w : Word) : Except DecodeReject Instr :=
  match e.mnem (e.opcodeField w) with
  | none => .error (.illegalOpcode w)
  | some m =>
    if w &&& e.layout.unusedMask m.format = 0 then .ok (e.layout.read w m) else .error (.unusedBits w)

/-! ### Encode (R113), written from R101 to R106 -/

def FieldLayout.putRRR (l : FieldLayout) (dest src1 src2 : RegIdx) : Word :=
  putField l.rrrDest dest ||| putField l.rrrSrc1 src1 ||| putField l.rrrSrc2 src2
def FieldLayout.putRRI (l : FieldLayout) (first second : RegIdx) (imm : Imm16) : Word :=
  putField l.rriFirst first ||| putField l.rriSecond second ||| putField l.rriImm imm
def FieldLayout.putRR (l : FieldLayout) (dest src1 : RegIdx) : Word :=
  putField l.rrDest dest ||| putField l.rrSrc1 src1
def FieldLayout.putRI (l : FieldLayout) (dest : RegIdx) (imm : Imm16) : Word :=
  putField l.riDest dest ||| putField l.riImm imm
def FieldLayout.putI (l : FieldLayout) (imm : Imm16) : Word := putField l.iImm imm

/-- The register and immediate fields of an instruction, every other bit 0 (R113). -/
def FieldLayout.put (l : FieldLayout) : Instr → Word
  | .add d a b | .sub d a b | .mul d a b | .div d a b | .and d a b | .or d a b | .xor d a b | .sllv d a b =>
    l.putRRR d a b
  | .sll d a k | .srl d a k | .sra d a k | .addi d a k | .ld d a k => l.putRRI d a k
  | .st base value k => l.putRRI base value k
  | .beq a b k | .bne a b k | .blt a b k | .bgt a b k => l.putRRI a b k
  | .not d a | .movr d a => l.putRR d a
  | .movi d k => l.putRI d k
  | .nop k | .bu k | .bl k | .ret k | .eop k => l.putI k

/-- `encode`: the word of an instruction (R113). -/
def encode (e : Encoding) (i : Instr) : Word :=
  putField e.layout.opcode (i.opcode e) ||| e.layout.put i

/-! ### The host's view of the decoder -/

/-- The word an instruction of `nbits` bits makes, every bit above them 0. Memory holds words whole (R74), so no byte
order enters. -/
def tableWord (nbits w : Nat) : Word := BitVec.ofNat 32 (w % 2 ^ nbits)

/-- What the decoder reads from an opcode-table word under the spec's own encoding. -/
def decodeTableWord (nbits w : Nat) : Option Instr :=
  match decode Encoding.spec (tableWord nbits w) with
  | .ok i => some i
  | .error _ => none

end Sys2Proof
end

