-- ==== Sys2Proof/Config.lean ====
section
/-!
DEFINITION. The implementation parameters (spec/00_scope.md R5): plain data that State carries and no step changes
(log entries 1 and 2), and the uninterpreted dependency check IS_READY (log entry 5).
-/

namespace Sys2Proof

/-- The parameters of R5. The defaults are R5's, which "is used only by the test vectors"; a statement that does not
fix them holds for every value. -/
structure Config where
  /-- NUM_GPR, 1..16 (D6). -/
  numGpr           : Nat := 16
  /-- RESERVED_REG, 0..NUM_GPR-1 (D7). -/
  reservedReg      : Nat := 0
  /-- MEM_MIN (D8). R5 gives no default of its own for it: DESIGN CHOICE 1, log entry 2; no rule of a run reads it. -/
  memMin           : Nat := 1
  /-- MEM_WORDS, MEM_MIN..2^31 (D8). -/
  memWords         : Nat := 64
  /-- STACK_WORDS, at least NUM_GPR + 1 (D10). -/
  stackWords       : Nat := 256
  /-- MAX_CYCLES, 1..2^32-1 (D25). -/
  maxCycles        : Nat := 1000
  /-- SVC_EOP, not 0 (D21). -/
  svcEop           : Word := 1
  /-- true: IS_READY is the default, the constant true (D26). false: it is `Config.isReady`. -/
  isReadyStub      : Bool := true
  /-- STORE_BASE_FORWARD (D16). -/
  storeBaseForward : Bool := true
  /-- SR_WIDTH (D30): how many bits SR has. -/
  srWidth          : Nat := 32
  /-- SHIFT_MASK (D19; spec/93_implementation_defined.md I3): a shift's amount is ANDed with it (log entry 15). -/
  shiftMask        : Word := 31
  /-- FIELD_LAYOUT and OPCODE_MAP (D2, D3; I11; log entry 15). -/
  encoding         : Encoding := Encoding.spec
  deriving DecidableEq, Repr

/-- IS_READY(instruction, register file) where it is not the stub (R151, I5). It has no body: a statement that
meets it holds whatever check an implementation has. -/
opaque Config.isReady : Record → Regs → Bool

end Sys2Proof
end

