-- ==== Sys2Proof/WellFormed.lean ====
section
/-!
DEFINITION. Which instructions and which configurations the spec admits. Every field of an instruction has the width
of its encoding (spec/30_encoding.md R102 to R106), so the only check left on one is the register range, which
depends on NUM_GPR (spec/10_state.md R34); the checks on a configuration are the ranges of spec/00_scope.md R5 and,
for the encoding parameters, that they are an encoding.
-/

namespace Sys2Proof

/-- Every register field names a register that exists (R34). -/
def Instr.wf (numGpr : Nat) : Instr → Bool
  | .nop _ | .bu _ | .bl _ | .ret _ | .eop _ => true
  | .movi d _ => d.toNat < numGpr
  | .not d a | .movr d a | .sll d a _ | .srl d a _ | .sra d a _ | .addi d a _ | .ld d a _ | .st d a _
  | .beq d a _ | .bne d a _ | .blt d a _ | .bgt d a _ => d.toNat < numGpr && a.toNat < numGpr
  | .add d a b | .sub d a b | .mul d a b | .div d a b | .and d a b | .or d a b | .xor d a b | .sllv d a b =>
    d.toNat < numGpr && a.toNat < numGpr && b.toNat < numGpr

/-- Two fields, each its lowest bit and its width, share no bit. -/
def fieldsApart (f g : Nat × Nat) : Bool := f.1 + f.2 ≤ g.1 || g.1 + g.2 ≤ f.1

/-- The fields of a format stand inside the word and apart. -/
def FieldLayout.wfFormat (l : FieldLayout) (f : Format) : Bool :=
  (l.fields f).all (fun x => x.1 + x.2 ≤ 32) && decide ((l.fields f).Pairwise fun x y => fieldsApart x y)

/-- Every format of a FIELD_LAYOUT is well formed. -/
def FieldLayout.wf (l : FieldLayout) : Bool :=
  l.wfFormat .RRR && l.wfFormat .RRI && l.wfFormat .RR && l.wfFormat .RI && l.wfFormat .I

/-- The encodings the spec leaves room for (log entry 15): a well-formed layout, and an OPCODE_MAP that numbers each of
the 26 instructions once from 0 up, NOP with 0, so that the NOP word is 0x00000000 (spec/10_state.md R60; log entry
21). -/
def Encoding.wf (e : Encoding) : Bool :=
  e.layout.wf && e.opcodeMap.isPerm opcodeMapSpec && e.opcodeMap.head? == some .NOP

/-- The ranges of R5. -/
def Config.wf (c : Config) : Bool :=
  1 ≤ c.numGpr && c.numGpr ≤ 16
  && c.reservedReg < c.numGpr
  && 1 ≤ c.memMin && c.memMin ≤ c.memWords && c.memWords ≤ 2 ^ 31
  && c.numGpr + 1 ≤ c.stackWords
  && 1 ≤ c.maxCycles && c.maxCycles < 2 ^ 32
  && c.svcEop != 0
  && c.encoding.wf

end Sys2Proof
end

