-- ==== Sys2Proof/Machine/State.lean ====
section
/-!
DEFINITION. The whole state of the core (spec/10_state.md R67), its fault information (spec/60_exceptions.md R320,
R326), its reset value (spec/70_reset_and_hazards.md R360), and the reasons a step can stop.
-/

namespace Sys2Proof.Machine

/-! ### Fault information (R320, R326) -/

/-- The closed enumeration of fault kinds (R320). -/
inductive FaultKind where
  | memoryFault
  | registerFault
  | decodeFault
  | arithmeticFault
  /-- The assembler's; the core never raises it (R325). -/
  | parseFault
  deriving DecidableEq, Repr

/-- The stage that raises a fault (R326). -/
inductive Stage where
  | fetch | decode | issue | execute | writeback | load
  deriving DecidableEq, Repr

/-- The value a fault names (R321 to R324). -/
inductive FaultValue where
  /-- The PC, the effective address, or the first image address that does not fit (R321 a, b, e), read as signed. -/
  | address (a : Int)
  /-- R321 (c). -/
  | stackOverflow
  /-- R321 (d). -/
  | stackUnderflow
  /-- IR, its opcode and the PC (R322 a). -/
  | irOpcode (ir : Word) (opcode : BitVec 5) (pc : Word)
  /-- A register index (R322 b, c). -/
  | register (index : Nat)
  /-- The word and FD.fetchLoc (R323). -/
  | word (w : Word) (fetchLoc : Word)
  /-- The DIV's fetchLoc (R324). -/
  | divisor (fetchLoc : Word)
  deriving DecidableEq, Repr

/-- A fault's information record (R326). -/
structure FaultInfo where
  kind     : FaultKind
  stage    : Stage
  value    : FaultValue
  /-- The fetchLoc of the instruction involved, when there is one (log entry 8). -/
  fetchLoc : Option Word
  deriving DecidableEq, Repr

/-- STATUS (R66). -/
inductive Status where
  | running
  | halted
  | limitReached
  | faulted (f : FaultInfo)
  deriving DecidableEq, Repr

/-! ### The parts of the state -/

/-- The Fetch/Decode latch (R52). `word` is the instruction register IR (R47). -/
structure FetchLatch where
  word      : Word
  fetchLoc  : Word
  predTaken : Bool
  deriving DecidableEq, Repr

/-- The reset and flush value of FD (R52). -/
def FetchLatch.flushed : FetchLatch := { word := 0, fetchLoc := 0, predTaken := false }

/-- CTX, the Simulation Context (R62). -/
structure Context where
  branchTaken       : Bool
  branchTarget      : Word
  correctPrediction : Bool
  deriving DecidableEq, Repr

/-- The reset value of CTX, also set whenever a branch-unit instruction executes (R62, R160). -/
def Context.initial : Context := { branchTaken := false, branchTarget := 0, correctPrediction := true }

/-- MEM: the words of the flat word-addressed memory (R70) that differ from what an unlisted address reads as, by
strictly rising word address (`Memory.wf`; log entry 3). -/
structure Memory where
  cells : List (Nat × Word)
  deriving DecidableEq, Repr

/-- The whole state of the core (R67). -/
structure State where
  /-- The parameters (R5). No step changes them (log entry 1). -/
  cfg    : Config
  /-- x[0..NUM_GPR-1] (R30). -/
  regs   : Regs
  /-- The committed PC (R40). -/
  pc     : Word
  /-- The shadow-incremented PC (R42). -/
  spc    : Word
  /-- R44 -/
  lr     : Word
  /-- R45 -/
  mar    : Word
  /-- R46 -/
  mdr    : Word
  /-- The SR_WIDTH bits of the status-flag register, bit 0 first (R50; log entry 12). -/
  sr     : List Bool
  /-- R49 -/
  svc    : Word
  /-- R48 -/
  cyc    : Word
  /-- R52 -/
  fd     : FetchLatch
  /-- R53 -/
  di     : Record
  /-- R54, R55 -/
  iq     : List Record
  /-- R56 -/
  ew     : Record
  /-- R62 -/
  ctx    : Context
  /-- The call stack (R65), its TOP entry first (log entry 11). -/
  stack  : List Word
  /-- R70 -/
  mem    : Memory
  /-- R66 -/
  status : Status
  deriving DecidableEq, Repr

/-- The core right after reset under given parameters, no image loaded (R360). -/
def State.resetWith (c : Config) : State where
  cfg := c
  regs := Vector.replicate 16 0
  pc := 0
  spc := 0
  lr := 0
  mar := 0
  mdr := 0
  sr := List.replicate c.srWidth false
  svc := 0
  cyc := 0
  fd := FetchLatch.flushed
  di := Record.nop
  iq := []
  ew := Record.nop
  ctx := Context.initial
  stack := []
  mem := { cells := [] }
  status := .running

/-- The machine right after reset (R360), under R5's default parameters (log entry 2). -/
def State.reset : State := State.resetWith {}

/-! ### Why a step can stop -/

/-- The reasons `step` answers no next state. All are raised by `step` alone, and all are safe: "Once STATUS is not
Running, no further cycle runs" (R66, R365, R352). A fault of the spec is not among them: the cycle that raises one
answers the next state R340 describes, with STATUS = Faulted (log entry 7). -/
inductive Fault where
  /-- `step`, where STATUS = Halted (R366): no cycle runs. Safe. -/
  | halted
  /-- `step`, where STATUS = LimitReached (R367): no cycle runs. Safe. -/
  | limitReached
  /-- `step`, where STATUS = Faulted(f) (R340, R342): no cycle runs. Safe. -/
  | faulted (f : FaultInfo)
  deriving DecidableEq, Repr

/-- What the model gives no meaning. -/
inductive Refusal where
  /-- `exec`, for an instruction whose arm has no meaning yet. Safe: nothing is claimed of it. No arm does so now. -/
  | notModelled (mnemonic : String)
  deriving DecidableEq, Repr

end Sys2Proof.Machine
end

