-- ==== Sys2Proof/Machine/Ops.lean ====
section
/-!
DEFINITION. The named operations over registers, memory and the call stack (spec/10_state.md R34, spec/20_memory.md
R75, R79), taking a fault (spec/60_exceptions.md R340), and the way an instruction leaves Execute
(spec/40_pipeline.md R154, R160, R174).
-/

namespace Sys2Proof

/-- `0 <= a < MEM_WORDS`, the address read as a signed word (R75). -/
def Config.inRange (c : Config) (a : Word) : Bool := 0 ≤ a.toInt && a.toInt < c.memWords

/-- The words in one call-stack frame (R273). -/
def Config.frameWords (c : Config) : Nat := c.numGpr + 1

end Sys2Proof

namespace Sys2Proof.Machine

/-- What `exec` and `step` answer. -/
abbrev Result := Host.Outcome State Fault Refusal

/-! ### Taking a fault -/

/-- Taking a fault, the core's whole "trap entry": every part of the state keeps its value of the start of the cycle
and STATUS becomes Faulted(kind, info). No register saves a PC or a status, no mode changes, no handler is entered
(R340). There is no return from one (R342): from a state this answers, `step` runs no further cycle. -/
def State.takeFault (s : State) (f : FaultInfo) : State := { s with status := .faulted f }

/-- The fault a state stands at, if any. -/
def State.raised (s : State) : Option FaultInfo :=
  match s.status with
  | .faulted f => some f
  | _ => none

/-- A fault's code (R320). -/
def FaultKind.code : FaultKind → Nat
  | .memoryFault => 1
  | .registerFault => 2
  | .decodeFault => 3
  | .arithmeticFault => 4
  | .parseFault => 5

/-- An Execute-stage computation on `s` as the answer of `exec`: its state, or the fault taken from the start of the
cycle, nothing else of it done (R13, R340). -/
def State.conclude (s : State) : Except FaultInfo State → Result
  | .ok t => .next t
  | .error f => .next (s.takeFault f)

/-! ### General registers (R30, R34) -/

/-- `x[n]`. -/
def readReg (x : Regs) (n : Nat) : Word := x[n]?.getD 0

/-- `x[n] <- v`. -/
def writeReg (x : Regs) (n : Nat) (v : Word) : Regs := x.setIfInBounds n v

/-- The index check of every register access (R34, R322 c). -/
def State.checkReg (s : State) (stage : Stage) (fetchLoc : Word) (n : Nat) : Except FaultInfo Unit :=
  if n < s.cfg.numGpr then .ok ()
  else .error { kind := .registerFault, stage := stage, value := .register n, fetchLoc := some fetchLoc }

/-! ### Memory (R70 to R75) -/

/-- What an unlisted address reads as: every word the image does not cover holds 0 (R73). -/
def Memory.blank : Word := 0

def readCells : List (Nat × Word) → Nat → Word
  | [], _ => Memory.blank
  | (b, v) :: rest, a => if a = b then v else readCells rest a

def writeCells : List (Nat × Word) → Nat → Word → List (Nat × Word)
  | [], a, v => if v = Memory.blank then [] else [(a, v)]
  | (b, u) :: rest, a, v =>
    if a < b then (if v = Memory.blank then (b, u) :: rest else (a, v) :: (b, u) :: rest)
    else if a = b then (if v = Memory.blank then rest else (a, v) :: rest)
    else (b, u) :: writeCells rest a v

/-- The word at address `a`. -/
def Memory.read (m : Memory) (a : Nat) : Word := readCells m.cells a

/-- The memory with word `v` at address `a`. -/
def Memory.write (m : Memory) (a : Nat) (v : Word) : Memory := { cells := writeCells m.cells a v }

/-- The canonical form: addresses strictly rising, no word listed that an unlisted address reads as. -/
abbrev Memory.wf (m : Memory) : Prop :=
  m.cells.Pairwise (fun c d => c.1 < d.1) ∧ ∀ c ∈ m.cells, c.2 ≠ Memory.blank

/-- The range check of every access to MEM (R75). -/
def State.checkAddr (s : State) (stage : Stage) (fetchLoc : Option Word) (a : Word) : Except FaultInfo Unit :=
  if s.cfg.inRange a then .ok ()
  else .error { kind := .memoryFault, stage := stage, value := .address a.toInt, fetchLoc := fetchLoc }

/-- `MemRead(a, 1)` (R12). -/
def State.memRead (s : State) (stage : Stage) (fetchLoc : Option Word) (a : Word) : Except FaultInfo Word :=
  (s.checkAddr stage fetchLoc a).map fun _ => s.mem.read a.toNat

/-- `MemWrite(a, 1, v)` (R12). -/
def State.memWrite (s : State) (stage : Stage) (fetchLoc : Option Word) (a v : Word) : Except FaultInfo Memory :=
  (s.checkAddr stage fetchLoc a).map fun _ => s.mem.write a.toNat v

/-! ### The call stack (R78, R79, R273) -/

/-- `Push(x[0]), …, Push(x[n-1])`, each value given by `value` (R273). The list's head is the top. -/
def pushRegs (value : Nat → Word) (n : Nat) (stack : List Word) : List Word :=
  (List.range n).foldl (fun st r => value r :: st) stack

/-- `for r = n-1 downto 0: w <- Pop(); if r != RESERVED_REG: x[r] <- w` (R276), on a stack that holds the entries. -/
def popRegs (reserved : Nat) : Nat → List Word → Regs → Regs × List Word
  | 0, st, x => (x, st)
  | _ + 1, [], x => (x, [])
  | r + 1, w :: st, x => popRegs reserved r st (if r = reserved then x else writeReg x r w)

/-! ### Image load (R362) -/

/-- `MEM[i] <- image[i]`, from address `a` up. -/
def loadFrom (m : Memory) (a : Nat) : List Word → Memory
  | [] => m
  | w :: ws => loadFrom (m.write a w) (a + 1) ws

/-- Reset with an image (R360, R362): the words stand at addresses 0 up; an image longer than MEM_WORDS raises
MemoryFault(MEM_WORDS) with stage Load before any cycle runs (log entry 10). -/
def State.boot (c : Config) (image : List Word) : State :=
  if image.length ≤ c.memWords then
    { State.resetWith c with mem := loadFrom { cells := [] } 0 image }
  else
    (State.resetWith c).takeFault
      { kind := .memoryFault, stage := .load, value := .address c.memWords, fetchLoc := none }

/-! ### Leaving Execute -/

/-- The record in Execute: the head of IQ, or a bubble (R153). -/
def State.executing (s : State) : Record := s.iq.headD Record.nop

/-- An ALU or LSU instruction leaves Execute: its record, with `wbValue`, goes to EW (R154, R174). CTX.branchTaken is
false, as at the start of every cycle, and the other two fields of CTX keep their values (R64, R160). -/
def State.retire (s : State) (i : Instr) (wbValue : Word) : State :=
  { s with
    ew := { s.executing with instr := i, wbValue := wbValue }
    ctx := { s.ctx with branchTaken := false } }

/-- A branch-unit instruction starts executing: CTX is reset (R160), and its record goes to EW with the `wbValue` it
came with, since the unit sets none (R174). -/
def State.retireBranch (s : State) (i : Instr) : State :=
  { s with
    ew := { s.executing with instr := i }
    ctx := Context.initial }

/-- `CTX.branchTaken <- true; CTX.branchTarget <- target; CTX.correctPrediction <- false` (R11, R270). -/
def State.redirect (s : State) (target : Word) : State :=
  { s with ctx := { branchTaken := true, branchTarget := target, correctPrediction := false } }

end Sys2Proof.Machine
end

