-- ==== Sys2Proof/Machine/Operands.lean ====
section
/-!
DEFINITION. The operand views of an instruction (spec/30_encoding.md R107, R109), operand forwarding
(spec/40_pipeline.md R156 to R159, R163), effective addresses and targets (spec/42_load_store.md R241,
spec/43_branch.md R271), and the pure functions of the Arithmetic/Logic Unit (spec/41_alu.md R201, R215, R216).
-/

namespace Sys2Proof

/-! ### Views of the instruction (R109) -/

/-- `dest`; 0 where the format or a conditional branch has none. For ST it is the base register. -/
def Instr.dest : Instr → RegIdx
  | .add d _ _ | .sub d _ _ | .mul d _ _ | .div d _ _ | .and d _ _ | .or d _ _ | .xor d _ _ | .sllv d _ _
  | .sll d _ _ | .srl d _ _ | .sra d _ _ | .addi d _ _ | .ld d _ _ | .st d _ _
  | .not d _ | .movr d _ | .movi d _ => d
  | .beq _ _ _ | .bne _ _ _ | .blt _ _ _ | .bgt _ _ _ | .nop _ | .bu _ | .bl _ | .ret _ | .eop _ => 0

/-- `src1`; 0 where the format has none. For ST it is the register stored, for a conditional branch the first slot. -/
def Instr.src1 : Instr → RegIdx
  | .add _ a _ | .sub _ a _ | .mul _ a _ | .div _ a _ | .and _ a _ | .or _ a _ | .xor _ a _ | .sllv _ a _
  | .sll _ a _ | .srl _ a _ | .sra _ a _ | .addi _ a _ | .ld _ a _ | .st _ a _
  | .not _ a | .movr _ a
  | .beq a _ _ | .bne a _ _ | .blt a _ _ | .bgt a _ _ => a
  | .movi _ _ | .nop _ | .bu _ | .bl _ | .ret _ | .eop _ => 0

/-- `src2`; 0 where the format has none. For a conditional branch it is the second slot. -/
def Instr.src2 : Instr → RegIdx
  | .add _ _ b | .sub _ _ b | .mul _ _ b | .div _ _ b | .and _ _ b | .or _ _ b | .xor _ _ b | .sllv _ _ b
  | .beq _ b _ | .bne _ b _ | .blt _ b _ | .bgt _ b _ => b
  | .sll _ _ _ | .srl _ _ _ | .sra _ _ _ | .addi _ _ _ | .ld _ _ _ | .st _ _ _
  | .not _ _ | .movr _ _ | .movi _ _ | .nop _ | .bu _ | .bl _ | .ret _ | .eop _ => 0

/-- `imm`, sign-extended; 0 for RRR and RR (R107). -/
def Instr.imm : Instr → Word
  | .sll _ _ k | .srl _ _ k | .sra _ _ k | .addi _ _ k | .ld _ _ k | .st _ _ k
  | .beq _ _ k | .bne _ _ k | .blt _ _ k | .bgt _ _ k
  | .movi _ k | .nop k | .bu k | .bl k | .ret k | .eop k => sext16 k
  | .add _ _ _ | .sub _ _ _ | .mul _ _ _ | .div _ _ _ | .and _ _ _ | .or _ _ _ | .xor _ _ _ | .sllv _ _ _
  | .not _ _ | .movr _ _ => 0

/-- `WB_WRITES(I)`: Writeback commits ALU and LSU instructions other than NOP and ST (R163). -/
def Instr.wbWrites (i : Instr) : Bool :=
  (i.unit == .ALU || i.unit == .LSU) && i.mnem != .NOP && i.mnem != .ST

end Sys2Proof

namespace Sys2Proof.Machine

/-! ### Forwarding (R156 to R159) -/

/-- The two levels, for register `r` captured as `v`: level 1 takes the register file's value where it differs from
`v`; level 2, which wins, takes the value Writeback is committing to `r` in this cycle. -/
def State.fwdValue (s : State) (r : RegIdx) (v : Word) : Word :=
  let level1 := if v ≠ readReg s.regs r.toNat then readReg s.regs r.toNat else v
  if s.ew.instr.wbWrites ∧ s.ew.instr.dest = r then s.ew.wbValue else level1

/-- `fwd(r, v)` with its index check (R157). -/
def State.fwd (s : State) (r : RegIdx) (v : Word) : Except FaultInfo Word :=
  (s.checkReg .execute s.executing.fetchLoc r.toNat).map fun _ => s.fwdValue r v

/-- `op1 = fwd(I.src1, I.val1)`. -/
def State.op1 (s : State) (r : RegIdx) : Except FaultInfo Word := s.fwd r s.executing.val1

/-- `op2 = fwd(I.src2, I.val2)`. -/
def State.op2 (s : State) (r : RegIdx) : Except FaultInfo Word := s.fwd r s.executing.val2

/-- A register Issue does not capture, as Execute reads it: `fwd(r, x[r])`, or the plain `x[r]` when
STORE_BASE_FORWARD is false (R159). -/
def State.lateValue (s : State) (r : RegIdx) : Word :=
  if s.cfg.storeBaseForward then s.fwdValue r (readReg s.regs r.toNat) else readReg s.regs r.toNat

/-- ST's base, with the index check of every register access (R34, R159). -/
def State.storeBase (s : State) (r : RegIdx) : Except FaultInfo Word :=
  (s.checkReg .execute s.executing.fetchLoc r.toNat).map fun _ => s.lateValue r

/-! ### Addresses (R241, R271) -/

/-- `ea = s32(base + I.imm)` (R241). -/
def effectiveAddress (base : Word) (imm : Imm16) : Word := base + sext16 imm

/-- `tgt = s32(I.fetchLoc + I.imm)` (R271). -/
def branchTarget (fetchLoc : Word) (imm : Imm16) : Word := fetchLoc + sext16 imm

/-- `s32(I.fetchLoc + 1)`: the not-taken continuation and BL's return address (R271, R274). -/
def nextLoc (fetchLoc : Word) : Word := fetchLoc + 1

/-! ### The Arithmetic/Logic Unit's functions -/

/-- The amount a shift uses: `amount AND SHIFT_MASK`, which is `amount[4:0]` for the default 31 (R215; D19; log
entry 15). -/
def shiftAmount (mask v : Word) : Nat := (v &&& mask).toNat

def shiftLeft (mask v amount : Word) : Word := v <<< shiftAmount mask amount
def shiftRightLogical (mask v amount : Word) : Word := v >>> shiftAmount mask amount
def shiftRightArith (mask v amount : Word) : Word := v.sshiftRight (shiftAmount mask amount)

/-- The quotient of DIV for a divisor that is not 0: truncation toward zero, and -2^31 / -1 = -2^31 (R205, R216). -/
def quotient (a b : Word) : Word :=
  if a.toInt = -2 ^ 31 ∧ b.toInt = -1 then s32 (-2 ^ 31) else s32 (a.toInt.tdiv b.toInt)

end Sys2Proof.Machine
end

