-- ==== Sys2Proof/Machine/Alu.lean ====
section
/-!
DEFINITION. The Arithmetic/Logic Unit (spec/41_alu.md R200 to R216) and NOP, whose unit it is (spec/44_control.md
R300). A meaning is what Execute does with the instruction; Writeback commits `wbValue` one cycle later
(Machine/Pipeline.lean, R164).
-/

namespace Sys2Proof.Machine

/-- An ALU instruction of two registers: `I.wbValue <- f op1 op2`. -/
def aluRegReg (i : Instr) (src1 src2 : RegIdx) (f : Word → Word → Word) (s : State) : Result :=
  s.conclude do
    let a ← s.op1 src1
    let b ← s.op2 src2
    pure (s.retire i (f a b))

/-- An ALU instruction of one register, its immediate (if it has one) inside `f`: `I.wbValue <- f op1`. -/
def aluReg (i : Instr) (src1 : RegIdx) (f : Word → Word) (s : State) : Result :=
  s.conclude do
    let a ← s.op1 src1
    pure (s.retire i (f a))

/-- R202 -/
def execAdd (dest src1 src2 : RegIdx) (s : State) : Result :=
  aluRegReg (.add dest src1 src2) src1 src2 (fun a b => a + b) s

/-- R203 -/
def execSub (dest src1 src2 : RegIdx) (s : State) : Result :=
  aluRegReg (.sub dest src1 src2) src1 src2 (fun a b => a - b) s

/-- R204: the low 32 bits of the product. -/
def execMul (dest src1 src2 : RegIdx) (s : State) : Result :=
  aluRegReg (.mul dest src1 src2) src1 src2 (fun a b => a * b) s

/-- R205: a zero divisor raises ArithmeticFault(I.fetchLoc). -/
def execDiv (dest src1 src2 : RegIdx) (s : State) : Result :=
  s.conclude do
    let a ← s.op1 src1
    let b ← s.op2 src2
    if b = 0 then
      .error { kind := .arithmeticFault, stage := .execute, value := .divisor s.executing.fetchLoc,
               fetchLoc := some s.executing.fetchLoc }
    else pure (s.retire (.div dest src1 src2) (quotient a b))

/-- R206 -/
def execAnd (dest src1 src2 : RegIdx) (s : State) : Result :=
  aluRegReg (.and dest src1 src2) src1 src2 (fun a b => a &&& b) s

/-- R207 -/
def execOr (dest src1 src2 : RegIdx) (s : State) : Result :=
  aluRegReg (.or dest src1 src2) src1 src2 (fun a b => a ||| b) s

/-- R208 -/
def execXor (dest src1 src2 : RegIdx) (s : State) : Result :=
  aluRegReg (.xor dest src1 src2) src1 src2 (fun a b => a ^^^ b) s

/-- R209 -/
def execNot (dest src1 : RegIdx) (s : State) : Result :=
  aluReg (.not dest src1) src1 (fun a => ~~~a) s

/-- R210 -/
def execSll (dest src1 : RegIdx) (imm : Imm16) (s : State) : Result :=
  aluReg (.sll dest src1 imm) src1 (fun a => shiftLeft s.cfg.shiftMask a (sext16 imm)) s

/-- R211 -/
def execSrl (dest src1 : RegIdx) (imm : Imm16) (s : State) : Result :=
  aluReg (.srl dest src1 imm) src1 (fun a => shiftRightLogical s.cfg.shiftMask a (sext16 imm)) s

/-- R212 -/
def execSra (dest src1 : RegIdx) (imm : Imm16) (s : State) : Result :=
  aluReg (.sra dest src1 imm) src1 (fun a => shiftRightArith s.cfg.shiftMask a (sext16 imm)) s

/-- R213 -/
def execSllv (dest src1 src2 : RegIdx) (s : State) : Result :=
  aluRegReg (.sllv dest src1 src2) src1 src2 (fun a b => shiftLeft s.cfg.shiftMask a b) s

/-- R214 -/
def execAddi (dest src1 : RegIdx) (imm : Imm16) (s : State) : Result :=
  aluReg (.addi dest src1 imm) src1 (fun a => a + sext16 imm) s

/-- R300: `I.wbValue <- 0`, and Writeback commits nothing. -/
def execNop (imm : Imm16) (s : State) : Result :=
  .next (s.retire (.nop imm) 0)

end Sys2Proof.Machine
end

