-- ==== Sys2Proof/Machine/Flags.lean ====
section
/-!
DEFINITION. The ISA has no flag: SR is never read or written (spec/10_state.md R50, spec/41_alu.md R200). What other
machines compute as flags is here the condition a conditional branch tests on its two forwarded operands, as signed
words (spec/43_branch.md R277 to R281).
-/

namespace Sys2Proof.Machine

def condEq (a b : Word) : Bool := a == b
def condNe (a b : Word) : Bool := a != b
/-- `op1 <s op2` -/
def condLt (a b : Word) : Bool := a.slt b
/-- `op1 >s op2` -/
def condGt (a b : Word) : Bool := b.slt a

end Sys2Proof.Machine
end

