-- ==== Sys2Proof/Machine/Branch.lean ====
section
/-!
DEFINITION. The Branch Unit (spec/43_branch.md R270 to R281). A meaning is what Execute does with the instruction;
the PC changes at the end of the cycle (Machine/Pipeline.lean, spec/40_pipeline.md R170).
-/

namespace Sys2Proof.Machine

/-- BU and BL redirect only if the prediction was "not taken" (R272, R274). -/
def State.takeUnlessPredicted (s : State) (rec : Record) (imm : Imm16) : State :=
  if rec.predTaken then s else s.redirect (branchTarget rec.fetchLoc imm)

/-- R272 -/
def execBu (imm : Imm16) (s : State) : Result :=
  .next ((s.retireBranch (.bu imm)).takeUnlessPredicted s.executing imm)

/-- R274: the link and the push always happen; the frame is checked whole before anything moves (R79). -/
def execBl (imm : Imm16) (s : State) : Result :=
  s.conclude <|
    if s.stack.length + s.cfg.frameWords > s.cfg.stackWords then
      .error { kind := .memoryFault, stage := .execute, value := .stackOverflow,
               fetchLoc := some s.executing.fetchLoc }
    else
      let link := nextLoc s.executing.fetchLoc
      let saved := pushRegs (fun r => s.lateValue (BitVec.ofNat 4 r)) s.cfg.numGpr s.stack
      pure (State.takeUnlessPredicted { s.retireBranch (.bl imm) with lr := link, stack := link :: saved }
        s.executing imm)

/-- R276: the popped link goes to LR and is the target; every general register but the reserved one is restored. The
frame is checked whole before anything moves (R79). -/
def execRet (imm : Imm16) (s : State) : Result :=
  s.conclude <|
    if s.stack.length < s.cfg.frameWords then
      .error { kind := .memoryFault, stage := .execute, value := .stackUnderflow,
               fetchLoc := some s.executing.fetchLoc }
    else
      let link := s.stack.headD 0
      let popped := popRegs s.cfg.reservedReg s.cfg.numGpr s.stack.tail s.regs
      pure (State.redirect { s.retireBranch (.ret imm) with lr := link, regs := popped.1, stack := popped.2 } link)

/-- R277: the condition against the prediction. -/
def condBranch (i : Instr) (src1 src2 : RegIdx) (imm : Imm16) (cond : Word → Word → Bool) (s : State) : Result :=
  s.conclude do
    let a ← s.op1 src1
    let b ← s.op2 src2
    let taken := cond a b
    let loc := s.executing.fetchLoc
    if taken = s.executing.predTaken then pure (s.retireBranch i)
    else pure ((s.retireBranch i).redirect (if taken then branchTarget loc imm else nextLoc loc))

/-- R278 -/
def execBeq (src1 src2 : RegIdx) (imm : Imm16) (s : State) : Result :=
  condBranch (.beq src1 src2 imm) src1 src2 imm condEq s

/-- R279 -/
def execBne (src1 src2 : RegIdx) (imm : Imm16) (s : State) : Result :=
  condBranch (.bne src1 src2 imm) src1 src2 imm condNe s

/-- R280 -/
def execBlt (src1 src2 : RegIdx) (imm : Imm16) (s : State) : Result :=
  condBranch (.blt src1 src2 imm) src1 src2 imm condLt s

/-- R281 -/
def execBgt (src1 src2 : RegIdx) (imm : Imm16) (s : State) : Result :=
  condBranch (.bgt src1 src2 imm) src1 src2 imm condGt s

end Sys2Proof.Machine
end

