-- ==== Sys2Proof/Machine/Control.lean ====
section
/-!
DEFINITION. EOP, the end of a program (spec/44_control.md R301, R302).
-/

namespace Sys2Proof.Machine

/-- R302: SVC <- SVC_EOP, no redirect; the run halts at the end of the cycle (R365). -/
def execEop (imm : Imm16) (s : State) : Result :=
  .next { s.retireBranch (.eop imm) with svc := s.cfg.svcEop }

end Sys2Proof.Machine
end

