-- ==== Sys2Proof/Machine/LoadStore.lean ====
section
/-!
DEFINITION. The Load/Store Unit (spec/42_load_store.md R240 to R245). A meaning is what Execute does with the
instruction; Writeback commits the `wbValue` of MOVI, MOVR and LD one cycle later, and nothing for ST (R163).
-/

namespace Sys2Proof.Machine

/-- R242 -/
def execMovi (dest : RegIdx) (imm : Imm16) (s : State) : Result :=
  .next (s.retire (.movi dest imm) (sext16 imm))

/-- R243 -/
def execMovr (dest src1 : RegIdx) (s : State) : Result :=
  s.conclude do
    let a ← s.op1 src1
    pure (s.retire (.movr dest src1) a)

/-- R244: MAR <- ea, MDR <- MEM[ea] as at the start of the cycle, wbValue <- MDR. -/
def execLd (dest base : RegIdx) (imm : Imm16) (s : State) : Result :=
  s.conclude do
    let a ← s.op1 base
    let ea := effectiveAddress a imm
    let w ← s.memRead .execute (some s.executing.fetchLoc) ea
    pure { s.retire (.ld dest base imm) w with mar := ea, mdr := w }

/-- R245: MAR <- ea, MDR <- op1, MEM[ea] <- op1. -/
def execSt (base value : RegIdx) (imm : Imm16) (s : State) : Result :=
  s.conclude do
    let v ← s.op1 value
    let b ← s.storeBase base
    let ea := effectiveAddress b imm
    let m ← s.memWrite .execute (some s.executing.fetchLoc) ea v
    pure { s.retire (.st base value imm) s.executing.wbValue with mar := ea, mdr := v, mem := m }

end Sys2Proof.Machine
end

