-- ==== Sys2Proof/Machine/Dispatch.lean ====
section
/-!
DEFINITION. Execute's dispatch (spec/40_pipeline.md R154): one arm per constructor of Instr, each one call of that
instruction's meaning.
-/

namespace Sys2Proof.Machine

/-- The Execute stage: `i` as it is executed at the start of a cycle in state `s`, which holds the values captured for
it, its fetchLoc and its prediction in `s.executing` (log entry 6). -/
def exec (i : Instr) (s : State) : Host.Outcome State Fault Refusal :=
  match i with
  | .nop imm => Sys2Proof.Machine.execNop imm s
  | .add dest src1 src2 => Sys2Proof.Machine.execAdd dest src1 src2 s
  | .sub dest src1 src2 => Sys2Proof.Machine.execSub dest src1 src2 s
  | .mul dest src1 src2 => Sys2Proof.Machine.execMul dest src1 src2 s
  | .div dest src1 src2 => Sys2Proof.Machine.execDiv dest src1 src2 s
  | .and dest src1 src2 => Sys2Proof.Machine.execAnd dest src1 src2 s
  | .or dest src1 src2 => Sys2Proof.Machine.execOr dest src1 src2 s
  | .xor dest src1 src2 => Sys2Proof.Machine.execXor dest src1 src2 s
  | .not dest src1 => Sys2Proof.Machine.execNot dest src1 s
  | .sll dest src1 imm => Sys2Proof.Machine.execSll dest src1 imm s
  | .srl dest src1 imm => Sys2Proof.Machine.execSrl dest src1 imm s
  | .sra dest src1 imm => Sys2Proof.Machine.execSra dest src1 imm s
  | .sllv dest src1 src2 => Sys2Proof.Machine.execSllv dest src1 src2 s
  | .addi dest src1 imm => Sys2Proof.Machine.execAddi dest src1 imm s
  | .movi dest imm => Sys2Proof.Machine.execMovi dest imm s
  | .movr dest src1 => Sys2Proof.Machine.execMovr dest src1 s
  | .ld dest src1 imm => Sys2Proof.Machine.execLd dest src1 imm s
  | .st base value imm => Sys2Proof.Machine.execSt base value imm s
  | .bu imm => Sys2Proof.Machine.execBu imm s
  | .bl imm => Sys2Proof.Machine.execBl imm s
  | .ret imm => Sys2Proof.Machine.execRet imm s
  | .beq src1 src2 imm => Sys2Proof.Machine.execBeq src1 src2 imm s
  | .bne src1 src2 imm => Sys2Proof.Machine.execBne src1 src2 imm s
  | .blt src1 src2 imm => Sys2Proof.Machine.execBlt src1 src2 imm s
  | .bgt src1 src2 imm => Sys2Proof.Machine.execBgt src1 src2 imm s
  | .eop imm => Sys2Proof.Machine.execEop imm s

end Sys2Proof.Machine
end

