-- ==== Sys2Proof/Machine/Pipeline.lean ====
section
/-!
DEFINITION. The stages around Execute and the end of a cycle (spec/40_pipeline.md R140 to R152, R162 to R176;
spec/70_reset_and_hazards.md R365): the branch predictor, Fetch, Decode, Issue, Writeback, reconciliation, flush, the
cycle counter and the termination checks. Each stage computes from the state at the start of the cycle (R140).
-/

namespace Sys2Proof

/-- BU, BL, BEQ, BNE, BLT, BGT: the branches whose target Fetch can compute (R146). -/
def Mnem.isPcRelative : Mnem → Bool
  | .BU | .BL | .BEQ | .BNE | .BLT | .BGT => true
  | _ => false

end Sys2Proof

namespace Sys2Proof.Machine

/-! ### The static branch predictor (R142) -/

/-- `predict(op, imm)` -/
def predict (m : Mnem) (imm : Word) : Bool :=
  match m with
  | .BU | .BL | .RET => true
  | .BEQ | .BNE | .BLT | .BGT => imm.slt 0
  | _ => false

/-! ### Fetch (R144 to R147) -/

/-- The shadow PC after a fetch at `a` (R146). -/
def shadowPc (m : Mnem) (a imm : Word) : Word :=
  if predict m imm ∧ m.isPcRelative then a + imm else a + 1

/-- Fetch: the FD latch and the SPC it writes, or its fault. -/
def fetch (s : State) : Except FaultInfo (FetchLatch × Word) := do
  let w ← s.memRead .fetch none s.pc
  let e := s.cfg.encoding
  match e.mnem (e.opcodeField w) with
  | none =>
    .error { kind := .registerFault, stage := .fetch, value := .irOpcode w (e.opcodeField w) s.pc,
             fetchLoc := some s.pc }
  | some m =>
    let imm := e.imm m.format w
    pure ({ word := w, fetchLoc := s.pc, predTaken := predict m imm }, shadowPc m s.pc imm)

/-! ### Decode (R112, R148) -/

/-- Decode of the FD latch. An opcode Fetch would have refused is refused here as well, as a DecodeFault (R323; log
entry 13): no run reaches it. -/
def decodeStage (s : State) : Except FaultInfo Record :=
  match decode s.cfg.encoding s.fd.word with
  | .ok i => .ok { instr := i, fetchLoc := s.fd.fetchLoc, predTaken := s.fd.predTaken }
  | .error _ =>
    .error { kind := .decodeFault, stage := .decode, value := .word s.fd.word s.fd.fetchLoc,
             fetchLoc := some s.fd.fetchLoc }

/-! ### Issue (R150 to R152) -/

/-- Which source registers Issue reads (R150): both, the first, or none. -/
inductive IssueReads where
  | both | first | none
  deriving DecidableEq, Repr

def issueReads (i : Instr) : IssueReads :=
  match i.format with
  | .RRR => .both
  | .RRI => if i.mnem.isCondBranch then .both else .first
  | .RR => .first
  | .RI | .I => .none

/-- Issue's capture of the record in DI (R150, R151). -/
def issue (s : State) : Except FaultInfo Record :=
  let r := { s.di with depFlag := false }
  match issueReads r.instr with
  | .both => do
    s.checkReg .issue r.fetchLoc r.instr.src1.toNat
    s.checkReg .issue r.fetchLoc r.instr.src2.toNat
    pure { r with val1 := readReg s.regs r.instr.src1.toNat, val2 := readReg s.regs r.instr.src2.toNat }
  | .first => do
    s.checkReg .issue r.fetchLoc r.instr.src1.toNat
    pure { r with val1 := readReg s.regs r.instr.src1.toNat }
  | .none => pure r

/-- `IS_READY(DI, x)` (R151). -/
def State.isReady (s : State) : Bool :=
  if s.cfg.isReadyStub then true else Config.isReady s.di s.regs

/-- What Fetch, Decode and Issue write at the end of a cycle. -/
structure FrontEnd where
  fd  : FetchLatch
  di  : Record
  iq  : List Record
  spc : Word
  deriving DecidableEq, Repr

/-- Fetch, Decode and Issue in one cycle: their results, or the first of their faults in that order (R176, R335); the
hold of R152 when the dependency check says not ready. -/
def frontEnd (s : State) : Except FaultInfo FrontEnd :=
  if s.isReady then do
    let f ← fetch s
    let d ← decodeStage s
    let q ← issue s
    pure { fd := f.1, di := d, iq := [q], spc := f.2 }
  else pure { fd := s.fd, di := { s.di with depFlag := true }, iq := [], spc := s.pc }

/-! ### Writeback (R162 to R165) -/

/-- The register write Writeback schedules, if any, or its fault. -/
def writeback (s : State) : Except FaultInfo (Option (RegIdx × Word)) :=
  let r := s.ew
  let d := r.instr.dest
  if r.instr.wbWrites then
    if d.toNat = s.cfg.reservedReg then
      .error { kind := .registerFault, stage := .writeback, value := .register d.toNat, fetchLoc := some r.fetchLoc }
    else do
      s.checkReg .writeback r.fetchLoc d.toNat
      pure (some (d, r.wbValue))
  else pure none

/-! ### End of the cycle (R170 to R175, R365) -/

/-- The general registers Execute writes: RET restores all that exist but the reserved one (R33, R276). -/
def executeWrites (c : Config) (i : Instr) (r : RegIdx) : Bool :=
  i.mnem == .RET && r.toNat < c.numGpr && r.toNat != c.reservedReg

/-- Writeback's write and RET's restores in one cycle: where both name a register, RET's value remains (R172). -/
def commitRegs (c : Config) (i : Instr) (afterExecute : Regs) : Option (RegIdx × Word) → Regs
  | none => afterExecute
  | some (d, v) => if executeWrites c i d then afterExecute else writeReg afterExecute d.toNat v

/-- The end-of-cycle checks, after CYC is incremented: halt before limit (R365). -/
def endStatus (s : State) : Status :=
  if s.svc = s.cfg.svcEop then .halted
  else if s.cfg.maxCycles ≤ s.cyc.toNat then .limitReached
  else .running

/-- The reconciliation of the PC views, with the flush when Execute redirects (R170, R171). -/
def State.reconcile (s : State) (fe : FrontEnd) : State :=
  if s.ctx.branchTaken then
    { s with pc := s.ctx.branchTarget, fd := FetchLatch.flushed, di := Record.nop, iq := [] }
  else { s with pc := fe.spc, fd := fe.fd, di := fe.di, iq := fe.iq }

/-- The end of a cycle in which no stage faulted: `t` is the state as Execute left it (R170 to R176). -/
def commitCycle (t : State) (i : Instr) (fe : FrontEnd) (wb : Option (RegIdx × Word)) : State :=
  let u := State.reconcile { t with regs := commitRegs t.cfg i t.regs wb, spc := fe.spc, cyc := t.cyc + 1 } fe
  { u with status := endStatus u }

/-- The whole cycle around Execute (R176): `s` is the start of the cycle, `t` what Execute answered on it. A fault of
any stage voids the cycle, and the first in the order Fetch, Decode, Issue, Execute, Writeback is reported (R335,
R340). -/
def endOfCycle (s t : State) : State :=
  match frontEnd s with
  | .error f => s.takeFault f
  | .ok fe =>
    match t.raised with
    | some f => s.takeFault f
    | none =>
      match writeback s with
      | .error f => s.takeFault f
      | .ok wb => commitCycle t s.executing.instr fe wb

/-- A cycle from the start state and Execute's answer. -/
def finishCycle (s : State) : Result → Result
  | .next t => .next (endOfCycle s t)
  | .fault r => .fault r
  | .refused r => .refused r

/-! ### Placing an instruction for the next cycle -/

/-- The state in which the instruction of word `w`, standing in memory at the PC, has been fetched, decoded and issued
with nothing behind it, so that the next cycle executes it; a word Fetch refuses stands in memory only, and a word
Decode refuses in memory and FD (log entry 9). -/
def State.placeWord (s : State) (w : Word) : State :=
  let e := s.cfg.encoding
  let mem := if s.cfg.inRange s.pc then s.mem.write s.pc.toNat w else s.mem
  match e.mnem (e.opcodeField w) with
  | none => { s with mem := mem }
  | some m =>
    let imm := e.imm m.format w
    let p := predict m imm
    let next := shadowPc m s.pc imm
    match decode e w with
    | .error _ => { s with mem := mem, fd := { word := w, fetchLoc := s.pc, predTaken := p }, pc := next, spc := next }
    | .ok i =>
      let r : Record :=
        { instr := i, fetchLoc := s.pc, predTaken := p
          val1 := if issueReads i = .none then 0 else readReg s.regs i.src1.toNat
          val2 := if issueReads i = .both then readReg s.regs i.src2.toNat else 0 }
      { s with mem := mem, fd := FetchLatch.flushed, di := Record.nop, iq := [r], pc := next, spc := next }

end Sys2Proof.Machine
end

