-- ==== Sys2Proof/Machine/Step.lean ====
section
/-!
DEFINITION. One step is one clock cycle (spec/40_pipeline.md R176).
-/

namespace Sys2Proof.Machine

/-- One cycle while STATUS = Running (R176, R364); no cycle runs in any other STATUS (R66, R365). -/
def step (s : State) : Host.Outcome State Fault Refusal :=
  match s.status with
  | .running => finishCycle s (exec s.executing.instr s)
  | .halted => .fault .halted
  | .limitReached => .fault .limitReached
  | .faulted f => .fault (.faulted f)

/-- `s` with the instruction of an opcode-table word placed so that the very next step runs it (log entry 9). -/
def State.withFetchWord (s : State) (nbits w : Nat) : State := s.placeWord (tableWord nbits w)

end Sys2Proof.Machine
end

