-- ==== Sys2Proof/Machine/Sequential.lean ====
section
/-!
DEFINITION. The one-instruction-at-a-time interpreter of spec/70_reset_and_hazards.md R396, against which the pipeline
is compared: it starts at address 0, executes each instruction by the instruction rules with `op = x[r]`, goes to the
branch's resolved target or to fetchLoc + 1, and stops after EOP. No step of the machine uses it.
-/

namespace Sys2Proof.Machine

/-- The architectural state R396 compares, with the address of the next instruction. -/
structure Arch where
  x     : Regs
  pc    : Word
  lr    : Word
  mar   : Word
  mdr   : Word
  svc   : Word
  mem   : Memory
  stack : List Word
  deriving DecidableEq, Repr

/-- `x[r]`; none where the register does not exist (R34). -/
def Arch.reg (c : Config) (a : Arch) (r : RegIdx) : Option Word :=
  if r.toNat < c.numGpr then some (readReg a.x r.toNat) else none

/-- `x[d] <- v` and on to the next word; none where the write faults (R164). -/
def Arch.setReg (c : Config) (a : Arch) (d : RegIdx) (v : Word) : Option Arch :=
  if d.toNat = c.reservedReg ∨ c.numGpr ≤ d.toNat then none
  else some { a with x := writeReg a.x d.toNat v, pc := nextLoc a.pc }

def Arch.alu2 (c : Config) (a : Arch) (d p q : RegIdx) (f : Word → Word → Option Word) : Option Arch := do
  let v ← f (← a.reg c p) (← a.reg c q)
  a.setReg c d v

def Arch.alu1 (c : Config) (a : Arch) (d p : RegIdx) (f : Word → Word) : Option Arch := do
  a.setReg c d (f (← a.reg c p))

def Arch.branchIf (c : Config) (a : Arch) (p q : RegIdx) (k : Imm16) (cond : Word → Word → Bool) : Option Arch := do
  let taken := cond (← a.reg c p) (← a.reg c q)
  some { a with pc := if taken then branchTarget a.pc k else nextLoc a.pc }

/-- One instruction at `a.pc`; none where it faults. -/
def Arch.exec (c : Config) (i : Instr) (a : Arch) : Option Arch :=
  match i with
  | .nop _ => some { a with pc := nextLoc a.pc }
  | .add d p q => a.alu2 c d p q fun u v => some (u + v)
  | .sub d p q => a.alu2 c d p q fun u v => some (u - v)
  | .mul d p q => a.alu2 c d p q fun u v => some (u * v)
  | .div d p q => a.alu2 c d p q fun u v => if v = 0 then none else some (quotient u v)
  | .and d p q => a.alu2 c d p q fun u v => some (u &&& v)
  | .or d p q => a.alu2 c d p q fun u v => some (u ||| v)
  | .xor d p q => a.alu2 c d p q fun u v => some (u ^^^ v)
  | .sllv d p q => a.alu2 c d p q fun u v => some (shiftLeft c.shiftMask u v)
  | .not d p => a.alu1 c d p fun u => ~~~u
  | .sll d p k => a.alu1 c d p fun u => shiftLeft c.shiftMask u (sext16 k)
  | .srl d p k => a.alu1 c d p fun u => shiftRightLogical c.shiftMask u (sext16 k)
  | .sra d p k => a.alu1 c d p fun u => shiftRightArith c.shiftMask u (sext16 k)
  | .addi d p k => a.alu1 c d p fun u => u + sext16 k
  | .movr d p => a.alu1 c d p fun u => u
  | .movi d k => a.setReg c d (sext16 k)
  | .ld d b k => do
    let ea := effectiveAddress (← a.reg c b) k
    if c.inRange ea then
      Arch.setReg c { a with mar := ea, mdr := a.mem.read ea.toNat } d (a.mem.read ea.toNat)
    else none
  | .st b v k => do
    let u ← a.reg c v
    let ea := effectiveAddress (← a.reg c b) k
    if c.inRange ea then
      some { a with mar := ea, mdr := u, mem := a.mem.write ea.toNat u, pc := nextLoc a.pc }
    else none
  | .bu k => some { a with pc := branchTarget a.pc k }
  | .bl k =>
    if a.stack.length + c.frameWords > c.stackWords then none
    else some { a with
      lr := nextLoc a.pc
      stack := nextLoc a.pc :: pushRegs (readReg a.x) c.numGpr a.stack
      pc := branchTarget a.pc k }
  | .ret _ =>
    if a.stack.length < c.frameWords then none
    else
      let link := a.stack.headD 0
      let popped := popRegs c.reservedReg c.numGpr a.stack.tail a.x
      some { a with x := popped.1, stack := popped.2, lr := link, pc := link }
  | .beq p q k => a.branchIf c p q k condEq
  | .bne p q k => a.branchIf c p q k condNe
  | .blt p q k => a.branchIf c p q k condLt
  | .bgt p q k => a.branchIf c p q k condGt
  | .eop _ => some { a with svc := c.svcEop, pc := nextLoc a.pc }

/-- Fetch, decode and execute one instruction; none after EOP and where it faults. -/
def Arch.step (c : Config) (a : Arch) : Option Arch :=
  if a.svc = c.svcEop ∨ c.inRange a.pc = false then none
  else
    match decode c.encoding (a.mem.read a.pc.toNat) with
    | .ok i => Arch.exec c i a
    | .error _ => none

/-- `n` instructions. -/
def Arch.run (c : Config) : Nat → Arch → Option Arch
  | 0, a => some a
  | n + 1, a => (Arch.step c a).bind (Arch.run c n)

/-- The architectural state of the pipeline, the write Writeback is about to commit included, as it stands before the
instruction at `pc` executes. -/
def State.arch (s : State) (pc : Word) : Arch where
  x := match writeback s with
    | .ok (some (d, v)) => writeReg s.regs d.toNat v
    | _ => s.regs
  pc := pc
  lr := s.lr
  mar := s.mar
  mdr := s.mdr
  svc := s.svc
  mem := s.mem
  stack := s.stack

end Sys2Proof.Machine
end

