-- ==== Sys2Proof/Safety.lean ====
section
/-!
DEFINITION. What the spec promises of every state of a run (the invariant of the core), and what it means that the
pipeline is on the path of the one-instruction-at-a-time interpreter (spec/70_reset_and_hazards.md R396).
-/

namespace Sys2Proof

/-- The parameters R396 asks for: "the default parameters (STORE_BASE_FORWARD = true, IS_READY = true)". -/
def Config.InOrder (c : Config) : Prop := c.storeBaseForward = true ∧ c.isReadyStub = true

end Sys2Proof

namespace Sys2Proof.Machine

/-! ### The invariant -/

/-- A record carries the prediction Fetch makes for its instruction (R143). -/
def Record.Predicted (r : Record) : Prop := r.predTaken = predict r.instr.mnem r.instr.imm

/-- The FD latch holds a word of a defined opcode (R47, R147) with its prediction (R143). -/
def FetchLatch.Legal (e : Encoding) (f : FetchLatch) : Prop :=
  ∃ m, e.mnem (e.opcodeField f.word) = some m ∧ f.predTaken = predict m (e.imm m.format f.word)

/-- What every cycle keeps. -/
structure Inv (s : State) : Prop where
  /-- The parameters are in R5's ranges. -/
  cfg          : s.cfg.wf = true
  /-- The reserved register "reads 0 at all times" (R31). -/
  reservedZero : readReg s.regs s.cfg.reservedReg = 0
  /-- Memory is in its canonical form. -/
  memForm      : s.mem.wf
  /-- Memory holds addresses 0..MEM_WORDS-1 only (R70). -/
  memBound     : ∀ c ∈ s.mem.cells, c.1 < s.cfg.memWords
  /-- The stack's length is at most STACK_WORDS (R65). -/
  stackBound   : s.stack.length ≤ s.cfg.stackWords
  /-- The stack holds whole frames (R273, R275). -/
  stackFrames  : s.cfg.frameWords ∣ s.stack.length
  /-- IQ holds at most one record (R55), issued as ready (R151) and predicted (R143). -/
  queueOne     : s.iq.length ≤ 1
  queueReady   : ∀ r ∈ s.iq, r.depFlag = false ∧ Record.Predicted r
  /-- SR keeps its reset value, SR_WIDTH zeros (R50). -/
  srZero       : s.sr = List.replicate s.cfg.srWidth false
  /-- IR holds a defined opcode (R47). -/
  irLegal      : FetchLatch.Legal s.cfg.encoding s.fd
  /-- DI holds no captured value (R53). -/
  diFresh      : s.di.val1 = 0 ∧ s.di.val2 = 0 ∧ s.di.wbValue = 0
  diPredicted  : Record.Predicted s.di
  ewPredicted  : Record.Predicted s.ew
  /-- A redirect is a misprediction, and a correct prediction leaves CTX as reset (R270). -/
  ctxTaken     : s.ctx.branchTaken = true → s.ctx.correctPrediction = false
  ctxCorrect   : s.ctx.correctPrediction = true → s.ctx.branchTarget = 0
  /-- SVC is written with SVC_EOP only (R49). -/
  svcValue     : s.svc = 0 ∨ s.svc = s.cfg.svcEop
  /-- The termination checks have passed while the core runs (R365). -/
  running      : s.status = .running → s.svc ≠ s.cfg.svcEop ∧ s.cyc.toNat < s.cfg.maxCycles
  halted       : s.status = .halted → s.svc = s.cfg.svcEop

/-! ### What the statements name -/

/-- The value Execute uses for register `r` (R156, R157): the value Writeback is committing to it, else `x[r]`. -/
def State.operand (s : State) (r : RegIdx) : Word :=
  if s.ew.instr.wbWrites ∧ s.ew.instr.dest = r then s.ew.wbValue else readReg s.regs r.toNat

/-- The value Execute uses for a register Issue does not capture (R159). -/
def State.lateOperand (s : State) (r : RegIdx) : Word :=
  if s.cfg.storeBaseForward then s.operand r else readReg s.regs r.toNat

/-- The state Execute leaves for an ALU or LSU instruction that computes `v`: the record is in EW, CTX.branchTaken is
false, and nothing else has changed (R154, R160, R174). -/
def State.computed (s : State) (i : Instr) (v : Word) : State :=
  { s with
    ew := { s.executing with instr := i, wbValue := v }
    ctx := { s.ctx with branchTaken := false } }

/-- The state Execute leaves for a branch-unit instruction that does not redirect: the record is in EW, CTX is reset,
and nothing else has changed (R160, R174). -/
def State.branched (s : State) (i : Instr) : State :=
  { s with
    ew := { s.executing with instr := i }
    ctx := { branchTaken := false, branchTarget := 0, correctPrediction := true } }

/-- What Writeback does next with `v` in EW for destination `d` (R164): RegisterFault for the reserved register and
for one that does not exist, else the write. -/
def State.CommitsTo (t : State) (d : RegIdx) (v : Word) : Prop :=
  writeback t =
    if d.toNat = t.cfg.reservedReg ∨ t.cfg.numGpr ≤ d.toNat then
      .error ⟨.registerFault, .writeback, .register d.toNat, some t.ew.fetchLoc⟩
    else .ok (some (d, v))

/-- An instruction's row of the spec's opcode map and what Issue reads for it (R110, R111, R150). -/
def HasRow (i : Instr) (op : BitVec 5) (f : Format) (u : ExecUnit) (reads : IssueReads) : Prop :=
  i.opcode Encoding.spec = op ∧ i.format = f ∧ i.unit = u ∧ issueReads i = reads

/-- `i` computes `v` for `d` in Execute from `s`: Execute answers `s.computed i v`, which Writeback commits. -/
def State.Computes (s : State) (i : Instr) (d : RegIdx) (v : Word) : Prop :=
  exec i s = .next (s.computed i v) ∧ (s.computed i v).CommitsTo d v

/-- `i` is stopped in Execute by a fault: nothing but STATUS changes (R340). -/
def State.Faults (s : State) (i : Instr) (kind : FaultKind) (value : FaultValue) : Prop :=
  exec i s = .next { s with status := .faulted ⟨kind, .execute, value, some s.executing.fetchLoc⟩ }


/-- The core has not stopped at a fault (R66). -/
def State.NotFaulted (s : State) : Prop := s.raised = none

/-- How many of the next `n` cycles redirect at Execute. -/
def redirects : Nat → State → Nat
  | 0, _ => 0
  | n + 1, s =>
    match step s with
    | .next t => (if t.ctx.branchTaken ∧ t.raised = none then 1 else 0) + redirects n t
    | _ => 0

/-! ### On the path of the program (R396) -/

/-- Where Fetch goes after the word at `loc` (R146). -/
def followOn (e : Encoding) (m : Memory) (loc : Word) : Word :=
  let w := m.read loc.toNat
  match e.mnem (e.opcodeField w) with
  | some mn => shadowPc mn loc (e.imm mn.format w)
  | none => loc + 1

/-- A record is the instruction that stands in memory at `loc`, fetched from there. -/
def Record.Holds (c : Config) (m : Memory) (loc : Word) (r : Record) : Prop :=
  c.inRange loc = true ∧ decode c.encoding (m.read loc.toNat) = .ok r.instr ∧ r.fetchLoc = loc ∧ Record.Predicted r

/-- FD holds the word that stands in memory at `loc`, fetched from there. -/
def FetchLatch.Holds (c : Config) (m : Memory) (loc : Word) (f : FetchLatch) : Prop :=
  c.inRange loc = true ∧ f.word = m.read loc.toNat ∧ f.fetchLoc = loc ∧ FetchLatch.Legal c.encoding f

/-- The front end is on the path of the program whose next instruction to execute stands at `loc`, with `bubbles`
bubbles ahead of it: of IQ, DI and FD the `bubbles` oldest hold the default no-op (R61, R171), and the others that
instruction and the ones Fetch chose after it. -/
def OnPath (s : State) (bubbles : Nat) (loc : Word) : Prop :=
  let next := followOn s.cfg.encoding s.mem
  match bubbles with
  | 3 => s.executing = Record.nop ∧ s.di = Record.nop ∧ s.fd = FetchLatch.flushed ∧ s.pc = loc
  | 2 => s.executing = Record.nop ∧ s.di = Record.nop ∧ FetchLatch.Holds s.cfg s.mem loc s.fd ∧ s.pc = next loc
  | 1 => s.executing = Record.nop ∧ Record.Holds s.cfg s.mem loc s.di
      ∧ FetchLatch.Holds s.cfg s.mem (next loc) s.fd ∧ s.pc = next (next loc)
  | 0 => Record.Holds s.cfg s.mem loc s.executing ∧ Record.Holds s.cfg s.mem (next loc) s.di
      ∧ FetchLatch.Holds s.cfg s.mem (next (next loc)) s.fd ∧ s.pc = next (next (next loc))
  | _ => False

/-- The pipeline tracks the interpreter: its architectural state is the interpreter's, and its front end is on the
path of the interpreter's next instruction, `bubbles` cycles before it executes. -/
def Tracks (s : State) (bubbles : Nat) (a : Arch) : Prop := s.arch a.pc = a ∧ OnPath s bubbles a.pc

/-- The address a ST in Execute stores to. -/
def State.storeAddress (s : State) : Option Word :=
  match s.executing.instr with
  | .st base _ imm => some (effectiveAddress (s.lateValue base) imm)
  | _ => none

/-- The instruction in Execute stores into none of the three words ahead of it in fetch order: those in DI and in FD
and the one being fetched (R383, R396). -/
def State.NoStoreAhead (s : State) : Prop :=
  ∀ ea, s.storeAddress = some ea → ea ≠ s.di.fetchLoc ∧ ea ≠ s.fd.fetchLoc ∧ ea ≠ s.pc

end Sys2Proof.Machine
end

