-- ==== Sys2Proof/Certificates/Slice0/Obligations.lean ====
section
/-!
DEFINITION. The statements for the provers. Each docstring names the rules of spec/ it formalises, or says that it is
derived.
-/

open Sys2Proof Sys2Proof.Machine

/-! ## Encoding -/

/-- R113: in every well-formed encoding (FIELD_LAYOUT and OPCODE_MAP are parameters, R5), decoding the word of any
instruction gives that instruction back, at every value of every field. -/
def Obligations.DecodeInvertsEncode : Prop :=
  ∀ (e : Encoding) (i : Instr), e.wf = true → decode e (encode e i) = .ok i

/-- R108, R113: in every well-formed encoding, a word the decoder accepts is the word of the instruction it reads. -/
def Obligations.EncodeInvertsDecode : Prop :=
  ∀ (e : Encoding) (w : Word) (i : Instr), e.wf = true → decode e w = .ok i → encode e i = w

/-- R101 to R107, R109, R110: the word of every instruction under the spec's own tables, as a number, and which of its
arguments are `dest`, `src1`, `src2` and `imm` (ST's `dest` is its base; a conditional branch has no `dest`, and its
`src1` and `src2` stand in the first and second slot). -/
def Obligations.FieldsStandAtTheirBits : Prop :=
  ∀ (d a b : RegIdx) (k : Imm16),
    let slots := fun x y z : RegIdx => x.toNat * 2 ^ 23 + y.toNat * 2 ^ 19 + z.toNat * 2 ^ 15
    let shown := fun (i : Instr) (dest src1 src2 : RegIdx) (imm : Word) (op fields : Nat) =>
      i.dest = dest ∧ i.src1 = src1 ∧ i.src2 = src2 ∧ i.imm = imm ∧ (encode .spec i).toNat = op * 2 ^ 27 + fields
    (∀ row ∈ [(Instr.add d a b, 1), (.sub d a b, 2), (.mul d a b, 3), (.div d a b, 4), (.and d a b, 5), (.or d a b, 6),
        (.xor d a b, 7), (.sllv d a b, 12)], shown row.1 d a b 0 row.2 (slots d a b)) ∧
    (∀ row ∈ [(Instr.sll d a k, 9), (.srl d a k, 10), (.sra d a k, 11), (.addi d a k, 13), (.ld d a k, 16),
        (.st d a k, 17)], shown row.1 d a 0 (s32 k.toInt) row.2 (slots d a 0 + k.toNat * 2 ^ 3)) ∧
    (∀ row ∈ [(Instr.beq a b k, 21), (.bne a b k, 22), (.blt a b k, 23), (.bgt a b k, 24)],
      shown row.1 0 a b (s32 k.toInt) row.2 (slots a b 0 + k.toNat * 2 ^ 3)) ∧
    (∀ row ∈ [(Instr.not d a, 8), (.movr d a, 15)], shown row.1 d a 0 0 row.2 (slots d a 0)) ∧
    shown (.movi d k) d 0 0 (s32 k.toInt) 14 (slots d 0 0 + k.toNat * 2 ^ 7) ∧
    (∀ row ∈ [(Instr.nop k, 0), (.bu k, 18), (.bl k, 19), (.ret k, 20), (.eop k, 25)],
      shown row.1 0 0 0 (s32 k.toInt) row.2 (k.toNat * 2 ^ 11))

/-- R110, R111: the spec's opcode map, row by row as the spec prints it: opcode, type, unit, match and mask. A word is an
instruction of a row exactly when it agrees with the row's match under its mask. -/
def Obligations.OpcodeMap : Prop :=
  ∀ row ∈ [(Mnem.NOP, 0#5, Format.I, ExecUnit.ALU, 0x00000000#32, 0xF80007FF#32),
      (.ADD, 1, .RRR, .ALU, 0x08000000, 0xF8007FFF), (.SUB, 2, .RRR, .ALU, 0x10000000, 0xF8007FFF),
      (.MUL, 3, .RRR, .ALU, 0x18000000, 0xF8007FFF), (.DIV, 4, .RRR, .ALU, 0x20000000, 0xF8007FFF),
      (.AND, 5, .RRR, .ALU, 0x28000000, 0xF8007FFF), (.OR, 6, .RRR, .ALU, 0x30000000, 0xF8007FFF),
      (.XOR, 7, .RRR, .ALU, 0x38000000, 0xF8007FFF), (.NOT, 8, .RR, .ALU, 0x40000000, 0xF807FFFF),
      (.SLL, 9, .RRI, .ALU, 0x48000000, 0xF8000007), (.SRL, 10, .RRI, .ALU, 0x50000000, 0xF8000007),
      (.SRA, 11, .RRI, .ALU, 0x58000000, 0xF8000007), (.SLLV, 12, .RRR, .ALU, 0x60000000, 0xF8007FFF)] ++
      [(.ADDI, 13, .RRI, .ALU, 0x68000000, 0xF8000007), (.MOVI, 14, .RI, .LSU, 0x70000000, 0xF800007F),
      (.MOVR, 15, .RR, .LSU, 0x78000000, 0xF807FFFF), (.LD, 16, .RRI, .LSU, 0x80000000, 0xF8000007),
      (.ST, 17, .RRI, .LSU, 0x88000000, 0xF8000007), (.BU, 18, .I, .BRU, 0x90000000, 0xF80007FF),
      (.BL, 19, .I, .BRU, 0x98000000, 0xF80007FF), (.RET, 20, .I, .BRU, 0xA0000000, 0xF80007FF),
      (.BEQ, 21, .RRI, .BRU, 0xA8000000, 0xF8000007), (.BNE, 22, .RRI, .BRU, 0xB0000000, 0xF8000007),
      (.BLT, 23, .RRI, .BRU, 0xB8000000, 0xF8000007), (.BGT, 24, .RRI, .BRU, 0xC0000000, 0xF8000007),
      (.EOP, 25, .I, .BRU, 0xC8000000, 0xF80007FF)],
    let (m, opcode, format, unit, matchWord, mask) := row
    Encoding.spec.opcode m = opcode ∧ m.format = format ∧ m.unit = unit ∧
    ∀ w : Word, (∃ i, decode .spec w = .ok i ∧ i.mnem = m) ↔ w &&& mask = matchWord

/-- R108, R114, R115: the words the decoder refuses, in every well-formed encoding. Opcodes 26 to 31 name no
instruction; under a defined opcode, a word is refused exactly when a bit in no field of its format is 1. -/
def Obligations.IllegalWordsAreRefused : Prop :=
  ∀ (e : Encoding) (w : Word), e.wf = true →
    let op := w.toNat / 2 ^ e.layout.opcode % 2 ^ 5
    (decode e w = .error (.illegalOpcode w) ↔ 26 ≤ op) ∧
    ∀ m : Mnem, (e.opcode m).toNat = op →
      (decode e w = .error (.unusedBits w) ↔
        ∃ k < 32, w.getLsbD k = true ∧ ∀ x ∈ e.layout.fields m.format, k < x.1 ∨ x.1 + x.2 ≤ k)

/-- R122: words written out from the encoding, one of each format and some more, decode to what they stand for. -/
def Obligations.SampleWordsDecode : Prop :=
  decode .spec 0x09890000 = .ok (.add 3 1 2) ∧ decode .spec 0x688FFFF8 = .ok (.addi 1 1 (-1)) ∧
  decode .spec 0x8A100028 = .ok (.st 4 2 5) ∧ decode .spec 0xA8900010 = .ok (.beq 1 2 2) ∧
  decode .spec 0x43B00000 = .ok (.not 7 6) ∧ decode .spec 0x77C00000 = .ok (.movi 15 (-32768)) ∧
  decode .spec 0x98001800 = .ok (.bl 3) ∧ decode .spec 0xC8000000 = .ok (.eop 0)

/-! ## Forwarding -/

/-- R157: the operand Execute uses, with its index check; level 2 wins over level 1. -/
def Obligations.OperandForwarding : Prop :=
  ∀ (s : State) (r : RegIdx) (v : Word),
    s.fwd r v =
      if s.cfg.numGpr ≤ r.toNat then
        .error ⟨.registerFault, .execute, .register r.toNat, some s.executing.fetchLoc⟩
      else if s.ew.instr.wbWrites ∧ s.ew.instr.dest = r then .ok s.ew.wbValue
      else .ok (readReg s.regs r.toNat)

/-- R161, R380 (derived): the operand Execute uses is what the register holds once every older instruction has
committed, that is after Writeback's write of this cycle; so no read-after-write hazard is visible. -/
def Obligations.OperandIsTheCommittedValue : Prop :=
  ∀ (s : State) (r : RegIdx) (v : Word) (wb : Option (RegIdx × Word)),
    writeback s = .ok wb → r.toNat < s.cfg.numGpr →
    s.fwd r v = .ok (readReg (match wb with | some (d, x) => writeReg s.regs d.toNat x | none => s.regs) r.toNat)

/-- R159, R381: with STORE_BASE_FORWARD false, the reads that Issue does not capture, ST's base and the registers BL
pushes, see the register file as it stands at the start of the cycle; with it true they are forwarded like a source
operand. -/
def Obligations.LateReadsFollowStoreBaseForward : Prop :=
  ∀ (s : State) (r : RegIdx), r.toNat < s.cfg.numGpr →
    (s.cfg.storeBaseForward = true → ∀ v, s.storeBase r = s.fwd r v ∧ .ok (s.lateValue r) = s.fwd r v) ∧
    (s.cfg.storeBaseForward = false →
      s.storeBase r = .ok (readReg s.regs r.toNat) ∧ s.lateValue r = readReg s.regs r.toNat) ∧
    ∀ (k : Imm16) (t : State), exec (.bl k) s = .next t → t.status = .running →
      t.stack[s.cfg.numGpr - r.toNat]? = some (s.lateValue r)

/-! ## The Arithmetic/Logic Unit -/

/-- R202, R203, R204: ADD, SUB and MUL compute the mathematical result of the two forwarded operands mod 2^32;
Writeback commits it; nothing else changes. -/
def Obligations.AddSubMulResults : Prop :=
  ∀ (s : State) (d a b : RegIdx), a.toNat < s.cfg.numGpr → b.toNat < s.cfg.numGpr →
    let x := (s.operand a).toInt
    let y := (s.operand b).toInt
    (HasRow (.add d a b) 1 .RRR .ALU .both ∧ s.Computes (.add d a b) d (s32 (x + y))) ∧
    (HasRow (.sub d a b) 2 .RRR .ALU .both ∧ s.Computes (.sub d a b) d (s32 (x - y))) ∧
    (HasRow (.mul d a b) 3 .RRR .ALU .both ∧ s.Computes (.mul d a b) d (s32 (x * y)))

/-- R205, R216: DIV raises ArithmeticFault(fetchLoc) on a zero divisor and otherwise computes the quotient rounded
toward zero, with -2^31 / -1 = -2^31; Writeback commits it; nothing else changes. -/
def Obligations.DivResult : Prop :=
  ∀ (s : State) (d a b : RegIdx), a.toNat < s.cfg.numGpr → b.toNat < s.cfg.numGpr →
    HasRow (.div d a b) 4 .RRR .ALU .both ∧
    (s.operand b = 0 → s.Faults (.div d a b) .arithmeticFault (.divisor s.executing.fetchLoc)) ∧
    (s.operand b ≠ 0 →
      ∃ q : Word, s.Computes (.div d a b) d q ∧
        if (s.operand a).toInt = -2 ^ 31 ∧ (s.operand b).toInt = -1 then q.toInt = -2 ^ 31
        else q.toInt = (s.operand a).toInt.tdiv (s.operand b).toInt)

/-- R206 to R209: AND, OR, XOR and NOT act bit by bit on the forwarded operands; Writeback commits the result; nothing
else changes. -/
def Obligations.BitwiseResults : Prop :=
  ∀ (s : State) (d a b : RegIdx), a.toNat < s.cfg.numGpr → b.toNat < s.cfg.numGpr →
    let x := s.operand a
    let y := s.operand b
    (HasRow (.and d a b) 5 .RRR .ALU .both ∧
      ∃ v : Word, s.Computes (.and d a b) d v ∧ ∀ k < 32, v.getLsbD k = (x.getLsbD k && y.getLsbD k)) ∧
    (HasRow (.or d a b) 6 .RRR .ALU .both ∧
      ∃ v : Word, s.Computes (.or d a b) d v ∧ ∀ k < 32, v.getLsbD k = (x.getLsbD k || y.getLsbD k)) ∧
    (HasRow (.xor d a b) 7 .RRR .ALU .both ∧
      ∃ v : Word, s.Computes (.xor d a b) d v ∧ ∀ k < 32, v.getLsbD k = (x.getLsbD k ^^ y.getLsbD k)) ∧
    (HasRow (.not d a) 8 .RR .ALU .first ∧
      ∃ v : Word, s.Computes (.not d a) d v ∧ ∀ k < 32, v.getLsbD k = !x.getLsbD k)

/-- R210 to R213, R215 (derived): a shift's amount is its amount operand, the sign-extended immediate or op2 for SLLV,
ANDed with SHIFT_MASK, which for the default 31 is its low 5 bits (that another mask is ANDed too is the model's choice,
log entry 15); SLL and SLLV multiply by 2^amt mod 2^32, SRL divides the unsigned operand by 2^amt, SRA the signed one,
rounding down; Writeback commits the result; nothing else changes. -/
def Obligations.ShiftResults : Prop :=
  ∀ (s : State) (d a b : RegIdx) (imm : Imm16), a.toNat < s.cfg.numGpr → b.toNat < s.cfg.numGpr →
    let x := s.operand a
    let amount := fun v : Word => (v &&& s.cfg.shiftMask).toNat
    let amt := amount (sext16 imm)
    (s.cfg.shiftMask = 31 → ∀ v, amount v = v.toNat % 32) ∧
    (HasRow (.sll d a imm) 9 .RRI .ALU .first ∧ s.Computes (.sll d a imm) d (BitVec.ofNat 32 (x.toNat * 2 ^ amt))) ∧
    (HasRow (.srl d a imm) 10 .RRI .ALU .first ∧ s.Computes (.srl d a imm) d (BitVec.ofNat 32 (x.toNat / 2 ^ amt))) ∧
    (HasRow (.sra d a imm) 11 .RRI .ALU .first ∧ s.Computes (.sra d a imm) d (s32 (x.toInt / 2 ^ amt))) ∧
    (HasRow (.sllv d a b) 12 .RRR .ALU .both ∧
      s.Computes (.sllv d a b) d (BitVec.ofNat 32 (x.toNat * 2 ^ amount (s.operand b))))

/-- R214: ADDI adds the sign-extended immediate to the forwarded operand mod 2^32; Writeback commits the sum; nothing
else changes. -/
def Obligations.AddiResult : Prop :=
  ∀ (s : State) (d a : RegIdx) (imm : Imm16), a.toNat < s.cfg.numGpr →
    HasRow (.addi d a imm) 13 .RRI .ALU .first ∧
    s.Computes (.addi d a imm) d (s32 ((s.operand a).toInt + imm.toInt))

/-- R300: NOP sets wbValue to 0, Writeback commits nothing for it, and nothing else changes, whatever its imm16. -/
def Obligations.NopResult : Prop :=
  ∀ (s : State) (imm : Imm16),
    HasRow (.nop imm) 0 .I .ALU .none ∧
    exec (.nop imm) s = .next (s.computed (.nop imm) 0) ∧ writeback (s.computed (.nop imm) 0) = .ok none

/-! ## The Load/Store Unit -/

/-- R242, R243: MOVI computes its sign-extended immediate and MOVR its forwarded source; Writeback commits the value;
nothing else changes. -/
def Obligations.MoveResults : Prop :=
  ∀ (s : State) (d a : RegIdx) (imm : Imm16),
    (HasRow (.movi d imm) 14 .RI .LSU .none ∧ s.Computes (.movi d imm) d (s32 imm.toInt)) ∧
    (a.toNat < s.cfg.numGpr → HasRow (.movr d a) 15 .RR .LSU .first ∧ s.Computes (.movr d a) d (s.operand a))

/-- R244: LD reads the word at `ea = s32(base + imm)` as memory stands at the start of the cycle, into MDR and wbValue,
writes ea to MAR, and changes nothing else (no word of memory); out of [0, MEM_WORDS) it raises MemoryFault(ea). -/
def Obligations.LoadResult : Prop :=
  ∀ (s : State) (d b : RegIdx) (imm : Imm16), b.toNat < s.cfg.numGpr →
    let ea := s32 ((s.operand b).toInt + imm.toInt)
    HasRow (.ld d b imm) 16 .RRI .LSU .first ∧
    (0 ≤ ea.toInt ∧ ea.toInt < s.cfg.memWords →
      let w := s.mem.read ea.toNat
      let t := { s.computed (.ld d b imm) w with mar := ea, mdr := w }
      exec (.ld d b imm) s = .next t ∧ t.CommitsTo d w) ∧
    (¬(0 ≤ ea.toInt ∧ ea.toInt < s.cfg.memWords) → s.Faults (.ld d b imm) .memoryFault (.address ea.toInt))

/-- R245: ST stores its forwarded value register at `ea = s32(base + imm)`, writes ea to MAR and the value to MDR,
leaves every other word of memory and everything else as it was, and Writeback commits nothing for it, whatever its
`dest`; out of [0, MEM_WORDS) it raises MemoryFault(ea). -/
def Obligations.StoreResult : Prop :=
  ∀ (s : State) (b v : RegIdx) (imm : Imm16), s.mem.wf → b.toNat < s.cfg.numGpr → v.toNat < s.cfg.numGpr →
    let base := if s.cfg.storeBaseForward then s.operand b else readReg s.regs b.toNat
    let ea := s32 (base.toInt + imm.toInt)
    let i := Instr.st b v imm
    HasRow i 17 .RRI .LSU .first ∧
    (0 ≤ ea.toInt ∧ ea.toInt < s.cfg.memWords →
      ∃ m : Memory,
        let t := { s.computed i s.executing.wbValue with mar := ea, mdr := s.operand v, mem := m }
        exec i s = .next t ∧ writeback t = .ok none ∧
        ∀ a : Nat, m.read a = if a = ea.toNat then s.operand v else s.mem.read a) ∧
    (¬(0 ≤ ea.toInt ∧ ea.toInt < s.cfg.memWords) → s.Faults i .memoryFault (.address ea.toInt))

/-! ## The Branch Unit and EOP -/

/-- R272: BU redirects to fetchLoc + imm if it was predicted not taken, and else only resets CTX; nothing else
changes, and Writeback commits nothing. -/
def Obligations.BranchUnconditionalResult : Prop :=
  ∀ (s : State) (imm : Imm16),
    let loc := s.executing.fetchLoc
    let t := s.branched (.bu imm)
    HasRow (.bu imm) 18 .I .BRU .none ∧
    exec (.bu imm) s = .next
      (if s.executing.predTaken then t else { t with ctx := ⟨true, s32 (loc.toInt + imm.toInt), false⟩ }) ∧
    writeback t = .ok none

/-- R274, R273: BL links fetchLoc + 1 in LR and pushes x[0], …, x[NUM_GPR-1] as forwarded (R159), then that link,
whatever the prediction; it redirects only if predicted not taken; nothing else changes. If the frame does not fit it
raises MemoryFault(stack overflow) and nothing is pushed. -/
def Obligations.BranchLinkResult : Prop :=
  ∀ (s : State) (imm : Imm16),
    let loc := s.executing.fetchLoc
    let link := s32 (loc.toInt + 1)
    let frame := link :: ((List.range s.cfg.numGpr).map fun r => s.lateOperand (BitVec.ofNat 4 r)).reverse
    let t := { s.branched (.bl imm) with lr := link, stack := frame ++ s.stack }
    HasRow (.bl imm) 19 .I .BRU .none ∧ writeback t = .ok none ∧
    (s.stack.length + s.cfg.numGpr + 1 ≤ s.cfg.stackWords →
      exec (.bl imm) s = .next
        (if s.executing.predTaken then t else { t with ctx := ⟨true, s32 (loc.toInt + imm.toInt), false⟩ })) ∧
    (s.cfg.stackWords < s.stack.length + s.cfg.numGpr + 1 → s.Faults (.bl imm) .memoryFault .stackOverflow)

/-- R276: RET pops the link into LR and the target, then x[NUM_GPR-1] down to x[0], restoring all but the reserved
register; it always redirects; nothing else changes. With fewer than NUM_GPR + 1 entries it raises MemoryFault(stack
underflow) and nothing is popped. -/
def Obligations.ReturnResult : Prop :=
  ∀ (s : State) (imm : Imm16), s.cfg.numGpr ≤ 16 →
    HasRow (.ret imm) 20 .I .BRU .none ∧
    (∀ link : Word, s.stack.head? = some link → s.cfg.numGpr + 1 ≤ s.stack.length →
      ∃ x : Regs,
        let t := { s.branched (.ret imm) with
          regs := x, lr := link, stack := s.stack.drop (s.cfg.numGpr + 1), ctx := ⟨true, link, false⟩ }
        exec (.ret imm) s = .next t ∧ writeback t = .ok none ∧
        ∀ r : Nat, readReg x r =
          if r < s.cfg.numGpr ∧ r ≠ s.cfg.reservedReg then s.stack.getD (s.cfg.numGpr - r) 0 else readReg s.regs r) ∧
    (s.stack.length < s.cfg.numGpr + 1 → s.Faults (.ret imm) .memoryFault .stackUnderflow)

/-- R277 to R281: a conditional branch compares its forwarded operands as signed words; where the outcome differs from
the prediction it redirects to fetchLoc + imm (taken) or fetchLoc + 1 (not taken), and else only resets CTX; nothing
else changes, and Writeback commits nothing. -/
def Obligations.ConditionalBranchResults : Prop :=
  ∀ (s : State) (a b : RegIdx) (imm : Imm16), a.toNat < s.cfg.numGpr → b.toNat < s.cfg.numGpr →
    let x := (s.operand a).toInt
    let y := (s.operand b).toInt
    ∀ row ∈ [(Instr.beq a b imm, 21#5, decide (x = y)), (.bne a b imm, 22#5, decide (x ≠ y)),
        (.blt a b imm, 23#5, decide (x < y)), (.bgt a b imm, 24#5, decide (x > y))],
      let i := row.1
      let taken := row.2.2
      let loc := s.executing.fetchLoc
      HasRow i row.2.1 .RRI .BRU .both ∧
      exec i s = .next
        (if taken = s.executing.predTaken then s.branched i
         else { s.branched i with
           ctx := ⟨true, s32 (loc.toInt + if taken then imm.toInt else 1), false⟩ }) ∧
      writeback (s.branched i) = .ok none

/-- R302: EOP writes SVC_EOP to SVC and resets CTX, does not redirect, and changes nothing else, whatever its imm16;
Writeback commits nothing. -/
def Obligations.EndOfProgramResult : Prop :=
  ∀ (s : State) (imm : Imm16),
    let t := { s.branched (.eop imm) with svc := s.cfg.svcEop }
    HasRow (.eop imm) 25 .I .BRU .none ∧ exec (.eop imm) s = .next t ∧ writeback t = .ok none

/-- R275 (derived): a RET undoes a BL's frame exactly: from any state with the stack BL left, it restores for every
register but the reserved one the value pushed, leaves the stack as it was before the BL, and goes to the link. -/
def Obligations.ReturnUndoesCall : Prop :=
  ∀ (s t u : State) (k k' : Imm16), s.cfg.numGpr ≤ 16 →
    exec (.bl k) s = .next t → s.stack.length + s.cfg.numGpr + 1 ≤ s.cfg.stackWords →
    u.cfg = s.cfg → u.stack = t.stack →
    ∃ v, exec (.ret k') u = .next v ∧ v.stack = s.stack ∧ v.lr = t.lr ∧
      v.ctx = ⟨true, s32 (s.executing.fetchLoc.toInt + 1), false⟩ ∧
      ∀ r : RegIdx, r.toNat < s.cfg.numGpr → r.toNat ≠ s.cfg.reservedReg → readReg v.regs r.toNat = s.lateOperand r

/-- R274's corner case (derived): calls nest to a depth of floor(STACK_WORDS / (NUM_GPR + 1)) frames and no further. -/
def Obligations.CallDepthLimit : Prop :=
  ∀ (s : State) (k : Imm16) (depth : Nat), s.stack.length = depth * (s.cfg.numGpr + 1) →
    s.status = .running →
    ((∃ t, exec (.bl k) s = .next t ∧ t.status = .running) ↔ depth < s.cfg.stackWords / (s.cfg.numGpr + 1))

/-! ## Execute as a whole -/

/-- The shape of the model's Execute (derived), which R176's cycle is built on: `exec` answers a next state for every
instruction in every state, a fault being one with STATUS = Faulted (log entry 7), and leaves the parameters, both PC
registers, the latches FD, DI and IQ, CYC and SR as they were. That it leaves IQ too is how the model splits the cycle
(log entry 6): R153's pop is done at the end of the cycle, when Issue's record takes the place of the one executed. -/
def Obligations.ExecuteLeavesTheFrontEnd : Prop :=
  ∀ (i : Instr) (s : State), ∃ t, exec i s = .next t ∧
    t.cfg = s.cfg ∧ t.pc = s.pc ∧ t.spc = s.spc ∧ t.fd = s.fd ∧ t.di = s.di ∧ t.iq = s.iq ∧ t.cyc = s.cyc ∧ t.sr = s.sr

/-- R34, R336 (derived): an operand register that does not exist raises RegisterFault(index) in Execute, before the
unit's own fault, for every instruction that reads it. That src1 is checked before src2, and a stored register before
its base, is the model's reading (log entry 16). -/
def Obligations.MissingRegisterFaults : Prop :=
  ∀ (i : Instr) (s : State),
    (issueReads i ≠ .none → s.cfg.numGpr ≤ i.src1.toNat → s.Faults i .registerFault (.register i.src1.toNat)) ∧
    (issueReads i = .both → i.src1.toNat < s.cfg.numGpr → s.cfg.numGpr ≤ i.src2.toNat →
      s.Faults i .registerFault (.register i.src2.toNat)) ∧
    (i.mnem = .ST → i.src1.toNat < s.cfg.numGpr → s.cfg.numGpr ≤ i.dest.toNat →
      s.Faults i .registerFault (.register i.dest.toNat))

/-- R160, R270 (derived): an ALU or LSU instruction leaves branchTarget and correctPrediction as they were, with
branchTaken false (R160); a branch-unit instruction leaves CTX at {false, 0, true}, or redirects with correctPrediction
false (the sentence R270 derives). -/
def Obligations.ContextLifetime : Prop :=
  ∀ (i : Instr) (s t : State), s.status = .running → exec i s = .next t → t.status = .running →
    (i.unit ≠ .BRU → t.ctx = ⟨false, s.ctx.branchTarget, s.ctx.correctPrediction⟩) ∧
    (i.unit = .BRU → t.ctx = ⟨false, 0, true⟩ ∨ ∃ target, t.ctx = ⟨true, target, false⟩)

/-! ## The stages around Execute -/

/-- R142: the static predictor. -/
def Obligations.StaticPrediction : Prop :=
  ∀ (m : Mnem) (imm : Word),
    predict m imm = true ↔
      m = .BU ∨ m = .BL ∨ m = .RET ∨ ((m = .BEQ ∨ m = .BNE ∨ m = .BLT ∨ m = .BGT) ∧ imm.toInt < 0)

/-- R144 to R147: Fetch reads the word at PC, raises MemoryFault(PC) out of [0, MEM_WORDS), RegisterFault(IR, opcode,
PC) for an opcode of 26 or more, and else writes {word, PC, prediction} to FD and to SPC the target of a predicted-taken
PC-relative branch, else PC + 1. The opcode and the immediates stand where FIELD_LAYOUT says (R101, R103, R106), and
OPCODE_MAP says whose opcode it is (R110). -/
def Obligations.FetchStage : Prop :=
  ∀ (s : State), s.cfg.wf = true →
    let e := s.cfg.encoding
    let w := s.mem.read s.pc.toNat
    let op := BitVec.ofNat 5 (w.toNat / 2 ^ e.layout.opcode)
    let imm := fun lo : Nat => (BitVec.ofNat 16 (w.toNat / 2 ^ lo)).toInt
    let inRange : Prop := 0 ≤ s.pc.toInt ∧ s.pc.toInt < s.cfg.memWords
    (¬inRange →
      ∃ f, fetch s = .error f ∧ f.kind = .memoryFault ∧ f.stage = .fetch ∧ f.value = .address s.pc.toInt) ∧
    (inRange → 26 ≤ op.toNat →
      ∃ f, fetch s = .error f ∧ f.kind = .registerFault ∧ f.stage = .fetch ∧ f.value = .irOpcode w op s.pc) ∧
    (inRange → op.toNat < 26 →
      ∃ (m : Mnem) (p : Bool) (next : Word), e.opcode m = op ∧ fetch s = .ok (⟨w, s.pc, p⟩, next) ∧
        let backward : Prop := (m = .BEQ ∨ m = .BNE ∨ m = .BLT ∨ m = .BGT) ∧ imm e.layout.rriImm < 0
        (p = true ↔ m = .BU ∨ m = .BL ∨ m = .RET ∨ backward) ∧
        next = s32 (s.pc.toInt +
          if m = .BU ∨ m = .BL then imm e.layout.iImm else if backward then imm e.layout.rriImm else 1))

/-- R148, R112, R323 (derived): Decode hands on the instruction of FD's word with its fetchLoc and prediction and no
value captured, or raises DecodeFault(word, fetchLoc) where the word is none. That it does so for a word of opcode 26 to
31 too, which never reaches Decode (R114), is the model's reading (log entry 13). -/
def Obligations.DecodeStageRule : Prop :=
  ∀ (s : State),
    (∀ i, decode s.cfg.encoding s.fd.word = .ok i →
      decodeStage s = .ok ⟨i, 0, 0, 0, s.fd.fetchLoc, s.fd.predTaken, false⟩) ∧
    ((∀ i, decode s.cfg.encoding s.fd.word ≠ .ok i) →
      decodeStage s = .error ⟨.decodeFault, .decode, .word s.fd.word s.fd.fetchLoc, some s.fd.fetchLoc⟩)

/-- R150, R151, R34, R322 (derived): what Issue captures for the instruction in DI: both sources for RRR and the
conditional branches, the first for the other RRI and for RR, none for RI and I. A source it reads that does not exist
raises RegisterFault(index) at Issue; that src1 is checked before src2 is the model's reading (log entry 16). -/
def Obligations.IssueCaptures : Prop :=
  ∀ (s : State),
    let i := s.di.instr
    let missing := fun r : RegIdx =>
      issue s = .error ⟨.registerFault, .issue, .register r.toNat, some s.di.fetchLoc⟩
    let both : Prop := i.format = .RRR ∨ i.mnem = .BEQ ∨ i.mnem = .BNE ∨ i.mnem = .BLT ∨ i.mnem = .BGT
    let first : Prop :=
      (i.format = .RRI ∧ i.mnem ≠ .BEQ ∧ i.mnem ≠ .BNE ∧ i.mnem ≠ .BLT ∧ i.mnem ≠ .BGT) ∨ i.format = .RR
    let x1 := readReg s.regs i.src1.toNat
    let x2 := readReg s.regs i.src2.toNat
    (both → i.src1.toNat < s.cfg.numGpr → i.src2.toNat < s.cfg.numGpr →
      issue s = .ok { s.di with val1 := x1, val2 := x2, depFlag := false }) ∧
    (first → i.src1.toNat < s.cfg.numGpr → issue s = .ok { s.di with val1 := x1, depFlag := false }) ∧
    (i.format = .RI ∨ i.format = .I → issue s = .ok { s.di with depFlag := false }) ∧
    (both ∨ first → s.cfg.numGpr ≤ i.src1.toNat → missing i.src1) ∧
    (both → i.src1.toNat < s.cfg.numGpr → s.cfg.numGpr ≤ i.src2.toNat → missing i.src2)

/-- R163, R164, R165: Writeback commits exactly the ALU and LSU instructions other than NOP and ST, and faults on the
reserved register and on one that does not exist. -/
def Obligations.WritebackRule : Prop :=
  ∀ (s : State),
    let i := s.ew.instr
    let commits : Prop := i.unit ≠ .BRU ∧ i.mnem ≠ .NOP ∧ i.mnem ≠ .ST
    (commits → s.CommitsTo i.dest s.ew.wbValue) ∧ (¬commits → writeback s = .ok none)

/-! ## The cycle -/

/-- R153, R154, R176: while the core runs, a cycle executes the head of IQ, or a bubble (NOP_INSTR) where IQ is empty,
by `exec`, with `endOfCycle` around it: the fetch, decode, issue and writeback of that cycle, the reconciliation, CYC
and the checks. -/
def Obligations.StepExecutesTheQueueHead : Prop :=
  ∀ (s : State), s.status = .running →
    (∀ r rest, s.iq = r :: rest → ∃ t, exec r.instr s = .next t ∧ step s = .next (endOfCycle s t)) ∧
    (s.iq = [] → ∃ t, exec (.nop 0) s = .next t ∧ step s = .next (endOfCycle s t))

/-- R140, R390 (derived): the word Fetch reads at the PC in one cycle is executed in the third cycle after it, as the
instruction it decodes to, at its own address and with its prediction, unless a cycle between redirects or faults; no
hold, since IS_READY is the stub. -/
def Obligations.FetchedWordExecutesThreeCyclesLater : Prop :=
  ∀ (s u1 u2 u3 : State) (i : Instr), s.cfg.isReadyStub = true →
    decode s.cfg.encoding (s.mem.read s.pc.toNat) = .ok i →
    step s = .next u1 → step u1 = .next u2 → step u2 = .next u3 → u3.status = .running →
    u1.ctx.branchTaken = false → u2.ctx.branchTaken = false → u3.ctx.branchTaken = false →
    u3.executing.instr = i ∧ u3.executing.fetchLoc = s.pc ∧ u3.executing.predTaken = predict i.mnem i.imm ∧
    ∃ t, exec i u3 = .next t ∧ step u3 = .next (endOfCycle u3 t)

/-- The model's own convention (log entry 9): after `withFetchWord` the very next step executes the instruction the
word decodes to under the core's encoding, at the address the PC had, and nothing else is in front of it. -/
def Obligations.PlacedWordRunsNext : Prop :=
  ∀ (s : State) (nbits w : Nat) (i : Instr), s.status = .running →
    decode s.cfg.encoding (tableWord nbits w) = .ok i →
    let p := s.withFetchWord nbits w
    p.executing.instr = i ∧ p.executing.fetchLoc = s.pc ∧ p.regs = s.regs ∧ p.ew = s.ew ∧ p.stack = s.stack ∧
    ∃ t, exec i p = .next t ∧ step p = .next (endOfCycle p t)

/-- R140, R59, R152 (derived): in a cycle that neither faults nor redirects nor holds, every latch hands its
instruction to the next one, with its address and prediction; FD takes the word that stood at the PC at the START of the
cycle, so a fetch does not see the store executed in its own cycle (R90, R93), and the prediction made for it (R142,
R145). -/
def Obligations.LatchesAdvance : Prop :=
  ∀ (s u : State), step s = .next u → u.NotFaulted → u.ctx.branchTaken = false → s.isReady = true →
    u.fd.word = s.mem.read s.pc.toNat ∧ u.fd.fetchLoc = s.pc ∧
    (∃ m, s.cfg.encoding.mnem (s.cfg.encoding.opcodeField u.fd.word) = some m ∧
      u.fd.predTaken = predict m (s.cfg.encoding.imm m.format u.fd.word)) ∧
    decode s.cfg.encoding s.fd.word = .ok u.di.instr ∧ u.di.fetchLoc = s.fd.fetchLoc ∧ u.di.predTaken = s.fd.predTaken ∧
    (∃ q, u.iq = [q] ∧ q.instr = s.di.instr ∧ q.fetchLoc = s.di.fetchLoc ∧ q.predTaken = s.di.predTaken) ∧
    u.ew.instr = s.executing.instr ∧ u.ew.fetchLoc = s.executing.fetchLoc ∧ u.ew.predTaken = s.executing.predTaken

/-- R170, with R171 and R174: at the end of a cycle without a fault, PC takes CTX.branchTarget and FD, DI and IQ are
flushed where Execute redirected; else PC takes SPC as Fetch computed it, and FD, DI and IQ what the front end produced.
The executed instruction is in EW either way. -/
def Obligations.RedirectFlushes : Prop :=
  ∀ (s u : State), step s = .next u → u.NotFaulted →
    u.ew.instr = s.executing.instr ∧ u.ew.fetchLoc = s.executing.fetchLoc ∧
    ∃ fe, frontEnd s = .ok fe ∧ u.spc = fe.spc ∧
      (u.ctx.branchTaken = true →
        u.pc = u.ctx.branchTarget ∧ u.fd = ⟨0, 0, false⟩ ∧ u.iq = [] ∧
        u.di = ⟨.nop 0, 0, 0, 0, 0, false, false⟩) ∧
      (u.ctx.branchTaken = false → u.pc = fe.spc ∧ u.fd = fe.fd ∧ u.di = fe.di ∧ u.iq = fe.iq)

/-- R152, with an IS_READY that is no stub: which of the two clauses applies is its answer, uninterpreted here. Where it
answers false, Fetch, Decode and Issue raise nothing and the front end holds: DI keeps its record with depFlag set, IQ
is empty, FD keeps its value, SPC and PC keep the PC; a redirect by Execute overrides all of this. Where it answers
true, the three stages run. -/
def Obligations.DependencyCheckHoldsTheFrontEnd : Prop :=
  ∀ (s t : State), s.status = .running → s.cfg.isReadyStub = false → exec s.executing.instr s = .next t →
    t.status = .running → (∃ wb, writeback s = .ok wb) →
    (Config.isReady s.di s.regs = false →
      ∃ u, step s = .next u ∧ u.NotFaulted ∧
        if t.ctx.branchTaken then
          u.pc = t.ctx.branchTarget ∧ u.di = Record.nop ∧ u.iq = [] ∧ u.fd = FetchLatch.flushed
        else u.di = { s.di with depFlag := true } ∧ u.iq = [] ∧ u.fd = s.fd ∧ u.spc = s.pc ∧ u.pc = s.pc) ∧
    (Config.isReady s.di s.regs = true → t.ctx.branchTaken = false →
      ∀ u, step s = .next u → u.NotFaulted →
        u.fd.fetchLoc = s.pc ∧ u.di.fetchLoc = s.fd.fetchLoc ∧ u.di.depFlag = false ∧
        ∃ q, u.iq = [q] ∧ q.instr = s.di.instr ∧ q.depFlag = false)

/-- R340: a cycle that faults writes nothing: every part of the state keeps its value, STATUS is Faulted, and no further
cycle runs. -/
def Obligations.FaultVoidsTheCycle : Prop :=
  ∀ (s u : State) (f : FaultInfo), step s = .next u → u.status = .faulted f →
    u = { s with status := .faulted f } ∧ ∀ v, step u ≠ .next v

/-- R335: of the faults raised in one cycle, the one reported is the first in the order Fetch, Decode, Issue, Execute,
Writeback (the first three run unless the front end holds, R152); with none, the cycle does not fault. -/
def Obligations.FirstStageFaultIsReported : Prop :=
  ∀ (s t u : State), s.status = .running → exec s.executing.instr s = .next t → step s = .next u →
    let err {α : Type} : Except FaultInfo α → Option FaultInfo := fun e => match e with | .error f => some f | .ok _ => none
    let front := if s.isReady then [err (fetch s), err (decodeStage s), err (issue s)] else []
    u.raised = (front ++ [t.raised, err (writeback s)]).findSome? id

/-- R114, R147, R115, R108 at the level of the cycle: fetching a word of opcode 26 to 31 stops the core with
RegisterFault, whatever the later stages do (R337); and, where the fetch is good, decoding a word with a must-be-0 bit
set stops it with DecodeFault. -/
def Obligations.IllegalWordsStopTheCore : Prop :=
  ∀ (s : State), s.cfg.wf = true → s.status = .running → s.isReady = true →
    0 ≤ s.pc.toInt → s.pc.toInt < s.cfg.memWords →
    let w := s.mem.read s.pc.toNat
    let op := BitVec.ofNat 5 (w.toNat / 2 ^ s.cfg.encoding.layout.opcode)
    (26 ≤ op.toNat →
      ∃ f, step s = .next { s with status := .faulted f } ∧ f.kind = .registerFault ∧ f.stage = .fetch ∧
        f.value = .irOpcode w op s.pc) ∧
    (op.toNat < 26 → decode s.cfg.encoding s.fd.word = .error (.unusedBits s.fd.word) →
      step s = .next { s with
        status := .faulted ⟨.decodeFault, .decode, .word s.fd.word s.fd.fetchLoc, some s.fd.fetchLoc⟩ })

/-- R365, R175: a cycle without a fault increments CYC and then checks for the halt, then for the limit. -/
def Obligations.EndOfCycleChecks : Prop :=
  ∀ (s u : State), step s = .next u → u.NotFaulted →
    u.cyc = s.cyc + 1 ∧
    (u.svc = u.cfg.svcEop → u.status = .halted) ∧
    (u.svc ≠ u.cfg.svcEop → u.cfg.maxCycles ≤ u.cyc.toNat → u.status = .limitReached) ∧
    (u.svc ≠ u.cfg.svcEop → u.cyc.toNat < u.cfg.maxCycles → u.status = .running)

/-- R66, R342, R352: once STATUS is not Running no further cycle runs, and only then does the machine stop. -/
def Obligations.OnlyAStoppedCoreRunsNoCycle : Prop :=
  ∀ (s : State), (∃ u, step s = .next u) ↔ s.status = .running

/-- R366 (derived): in EOP's Execute cycle, if no stage faults, the core halts with SVC = SVC_EOP, the older
instruction in Writeback commits, and the younger ones stay in FD, DI and IQ, unexecuted. -/
def Obligations.EopHaltsAfterTheOlderCommit : Prop :=
  ∀ (s u : State) (imm : Imm16), s.executing.instr = .eop imm → step s = .next u → u.NotFaulted →
    u.status = .halted ∧ u.svc = s.cfg.svcEop ∧
    (s.ew.instr.wbWrites = true → readReg u.regs s.ew.instr.dest.toNat = s.ew.wbValue) ∧
    u.mem = s.mem ∧ u.stack = s.stack ∧
    (s.isReady = true → ∃ q, u.iq = [q] ∧ q.instr = s.di.instr)

/-! ## Who writes what -/

/-- R33, R164, R172, R276: the general registers after a cycle without a fault: RET restores all that exist but the
reserved one, and its value remains where Writeback writes too; else Writeback's write; else no change. -/
def Obligations.RegistersAfterACycle : Prop :=
  ∀ (s u : State) (r : RegIdx), s.cfg.numGpr ≤ 16 → s.cfg.reservedReg < s.cfg.numGpr →
    step s = .next u → u.NotFaulted →
    readReg u.regs r.toNat =
      if s.executing.instr.mnem = .RET ∧ r.toNat < s.cfg.numGpr ∧ r.toNat ≠ s.cfg.reservedReg then
        s.stack.getD (s.cfg.numGpr - r.toNat) 0
      else if s.ew.instr.wbWrites = true ∧ s.ew.instr.dest = r then s.ew.wbValue
      else readReg s.regs r.toNat

/-- R82, R91 (derived): a cycle changes a word of memory only if ST is in Execute, and then only the word at its
effective address, to the value of its source register. -/
def Obligations.OnlyStoreWritesMemory : Prop :=
  ∀ (s u : State) (a : Nat), s.mem.wf → step s = .next u → u.mem.read a ≠ s.mem.read a →
    ∃ b v imm, s.executing.instr = .st b v imm ∧ u.mem.read a = s.operand v ∧
      a = (s32 ((s.lateOperand b).toInt + imm.toInt)).toNat

/-- R82, R275: only BL and RET touch the call stack, and they move whole frames. -/
def Obligations.OnlyCallAndReturnTouchTheStack : Prop :=
  ∀ (s u : State), step s = .next u →
    u.stack = s.stack ∨
    (s.executing.instr.mnem = .BL ∧ u.stack.drop (s.cfg.numGpr + 1) = s.stack ∧
      u.stack.length = s.stack.length + s.cfg.numGpr + 1) ∨
    (s.executing.instr.mnem = .RET ∧ u.stack = s.stack.drop (s.cfg.numGpr + 1) ∧
      s.stack.length = u.stack.length + s.cfg.numGpr + 1)

/-- R44, R45, R46, R49, R50: only BL and RET write LR, only LD and ST write MAR and MDR, only EOP writes SVC and only
with SVC_EOP, and nothing writes SR or the parameters. -/
def Obligations.SpecialRegisterWriters : Prop :=
  ∀ (s u : State), step s = .next u →
    (u.lr = s.lr ∨ s.executing.instr.mnem = .BL ∨ s.executing.instr.mnem = .RET) ∧
    ((u.mar = s.mar ∧ u.mdr = s.mdr) ∨ s.executing.instr.mnem = .LD ∨ s.executing.instr.mnem = .ST) ∧
    (u.svc = s.svc ∨ (s.executing.instr.mnem = .EOP ∧ u.svc = s.cfg.svcEop)) ∧
    u.sr = s.sr ∧ u.cfg = s.cfg

/-! ## Reset and image load -/

/-- R360: the reset value of every piece of state, under any parameters, with any image that fits. -/
def Obligations.ResetValues : Prop :=
  ∀ (c : Config) (image : List Word), image.length ≤ c.memWords →
    let s := State.boot c image
    (∀ r, readReg s.regs r = 0) ∧ s.pc = 0 ∧ s.spc = 0 ∧ s.ctx = ⟨false, 0, true⟩ ∧ s.lr = 0 ∧ s.mar = 0 ∧ s.mdr = 0 ∧
    s.sr = List.replicate c.srWidth false ∧ s.svc = 0 ∧ s.cyc = 0 ∧ s.fd = ⟨0, 0, false⟩ ∧
    s.di = ⟨.nop 0, 0, 0, 0, 0, false, false⟩ ∧ s.iq = [] ∧
    s.ew = ⟨.nop 0, 0, 0, 0, 0, false, false⟩ ∧ s.stack = [] ∧
    (∀ a : Nat, s.mem.read a = image.getD a 0) ∧ s.status = .running

/-- R362, R73: an image that fits stands at addresses 0 up with 0 elsewhere, everything else at its reset value; a
longer one raises MemoryFault(MEM_WORDS) with stage Load before any cycle runs. -/
def Obligations.ImageLoad : Prop :=
  ∀ (c : Config) (image : List Word),
    (image.length ≤ c.memWords →
      ∃ m : Memory, State.boot c image = { State.resetWith c with mem := m } ∧ m.wf ∧
        ∀ a : Nat, m.read a = image.getD a 0) ∧
    (c.memWords < image.length →
      (∃ f, (State.boot c image).status = .faulted f ∧ f.kind = .memoryFault ∧ f.stage = .load ∧
        f.value = .address c.memWords) ∧
      ∀ u, step (State.boot c image) ≠ .next u)

/-! ## Invariants -/

/-- The core right after reset, with any image that fits, meets the invariant. -/
def Obligations.ResetMeetsTheInvariant : Prop :=
  (∀ (c : Config) (image : List Word), c.wf = true → Inv (State.boot c image)) ∧ Inv State.reset

/-- R31, R47, R50, R53, R55, R65, R143, R270, R275 (derived): every cycle keeps the invariant. -/
def Obligations.StepKeepsTheInvariant : Prop :=
  ∀ (s u : State), Inv s → step s = .next u → Inv u

/-- R272 (derived): under the static predictor BU and BL never redirect at Execute. -/
def Obligations.PredictedJumpsNeverRedirect : Prop :=
  ∀ (s u : State), Inv s → step s = .next u → u.NotFaulted →
    s.executing.instr.mnem = .BU ∨ s.executing.instr.mnem = .BL → u.ctx.branchTaken = false

/-! ## The pipeline against program order -/

/-- R391, R171 (derived): after a redirect the next three cycles execute bubbles, and the cycle after them executes
the instruction at the target. -/
def Obligations.RedirectCostsThreeBubbles : Prop :=
  ∀ (s u0 u1 u2 u3 : State), s.cfg.wf = true → s.cfg.isReadyStub = true →
    step s = .next u0 → u0.ctx.branchTaken = true → step u0 = .next u1 → step u1 = .next u2 → step u2 = .next u3 →
    u3.NotFaulted →
    u0.executing = Record.nop ∧ u1.executing = Record.nop ∧ u2.executing = Record.nop ∧
    u3.executing.fetchLoc = u0.ctx.branchTarget ∧
    decode s.cfg.encoding (u0.mem.read u0.ctx.branchTarget.toNat) = .ok u3.executing.instr

/-- R396 for one cycle (derived): a pipeline that tracks the one-instruction-at-a-time interpreter executes that
interpreter's next instruction, or a bubble, and tracks it again; after a redirect three bubbles are ahead. -/
def Obligations.CycleTracksProgramOrder : Prop :=
  ∀ (s u : State) (bubbles : Nat) (a : Arch) (wb : Option (RegIdx × Word)),
    s.cfg.wf = true → s.cfg.InOrder → s.mem.wf → s.svc ≠ s.cfg.svcEop → s.NoStoreAhead → Tracks s bubbles a →
    step s = .next u → u.NotFaulted → writeback u = .ok wb →
    (bubbles = 0 → ∃ b, Arch.step s.cfg a = some b ∧ Tracks u (if u.ctx.branchTaken then 3 else 0) b) ∧
    (bubbles ≠ 0 → Tracks u (bubbles - 1) a)

/-- R396: a program that halts under the default forwarding and dependency check, and never stores into the three
words ahead of it in fetch order, leaves the general registers, LR, memory, call stack, SVC, MAR and MDR that the
one-instruction-at-a-time interpreter leaves. -/
def Obligations.HaltedRunMatchesProgramOrder : Prop :=
  ∀ (c : Config) (image : List Word) (n : Nat) (t : State),
    c.wf = true → c.InOrder → image.length ≤ c.memWords →
    (∀ k < n, ∀ u, Host.Core.run core k (State.boot c image) = .next u → State.NoStoreAhead u) →
    Host.Core.run core n (State.boot c image) = .next t → t.status = .halted →
    ∃ (m : Nat) (b : Arch), Arch.run c m ((State.boot c image).arch 0) = some b ∧ b.svc = c.svcEop ∧
      t.regs = b.x ∧ t.lr = b.lr ∧ t.mem = b.mem ∧ t.stack = b.stack ∧ t.svc = b.svc ∧ t.mar = b.mar ∧ t.mdr = b.mdr

/-- R392 for the runs of R396 (derived): a halted run takes E + 3 + 3 * X cycles, E the number of instructions the
interpreter executes, EOP included, and X the number of cycles that redirect. -/
def Obligations.HaltedRunCycleCount : Prop :=
  ∀ (c : Config) (image : List Word) (n : Nat) (t : State),
    c.wf = true → c.InOrder → image.length ≤ c.memWords →
    (∀ k < n, ∀ u, Host.Core.run core k (State.boot c image) = .next u → State.NoStoreAhead u) →
    Host.Core.run core n (State.boot c image) = .next t → t.status = .halted →
    ∃ (e : Nat) (b : Arch), Arch.run c e ((State.boot c image).arch 0) = some b ∧ b.svc = c.svcEop ∧
      n = e + 3 + 3 * redirects n (State.boot c image) ∧ t.cyc = BitVec.ofNat 32 n
end

