-- ==== Sys2Proof/Laws/Memory.lean ====
section
/-!
SUPPORT. What reading and writing registers, memory and the call stack do, said once; every memory operation keeps the
canonical form.
-/

namespace Sys2Proof.Machine

/-! ### Registers -/

@[simp] theorem readReg_writeReg (x : Regs) (n m : Nat) (v : Word) :
    readReg (writeReg x n v) m = if n = m ∧ n < 16 then v else readReg x m := by
  simp only [readReg, writeReg, Vector.getElem?_setIfInBounds]
  by_cases h : n = m
  · subst h
    by_cases h' : n < 16 <;> simp [h']
  · simp [h]

theorem readReg_out_of_bounds (x : Regs) (n : Nat) (h : 16 ≤ n) : readReg x n = 0 := by
  simp [readReg, Vector.getElem?_eq_none h]

/-- Two register files that read alike are equal. -/
theorem regs_ext (x y : Regs) (h : ∀ n < 16, readReg x n = readReg y n) : x = y := by
  ext i hi : 1
  simpa [readReg, Vector.getElem?_eq_getElem hi] using h i hi

@[simp] theorem readReg_replicate (n : Nat) : readReg (Vector.replicate 16 0) n = 0 := by
  by_cases h : n < 16
  · simp [readReg, Vector.getElem?_eq_getElem h]
  · exact readReg_out_of_bounds _ _ (by omega)

/-! ### Memory -/

theorem mem_writeCells (cells : List (Nat × Word)) (a : Nat) (v : Word) (c : Nat × Word)
    (h : c ∈ writeCells cells a v) : c = (a, v) ∧ v ≠ Memory.blank ∨ c ∈ cells := by
  induction cells with
  | nil => unfold writeCells at h; split at h <;> simp_all
  | cons d rest ih =>
    obtain ⟨b, u⟩ := d
    unfold writeCells at h
    split_ifs at h <;> simp only [List.mem_cons] at h ⊢ <;> try tauto

/-- A write keeps the canonical form. -/
theorem Memory.write_wf (m : Memory) (a : Nat) (v : Word) (h : m.wf) : (m.write a v).wf := by
  obtain ⟨hs, hn⟩ := h
  constructor
  · simp only [Memory.write]
    generalize m.cells = cells at hs
    induction cells with
    | nil => unfold writeCells; split <;> simp
    | cons d rest ih =>
      obtain ⟨b, u⟩ := d
      rw [List.pairwise_cons] at hs
      unfold writeCells
      split_ifs with h1 h2 h3 h4
      · exact List.pairwise_cons.2 hs
      · refine List.pairwise_cons.2 ⟨?_, List.pairwise_cons.2 hs⟩
        intro c hc
        rcases List.mem_cons.1 hc with rfl | hc
        · exact h1
        · exact lt_trans h1 (hs.1 c hc)
      · exact hs.2
      · refine List.pairwise_cons.2 ⟨?_, hs.2⟩
        intro c hc
        subst h3
        exact hs.1 c hc
      · refine List.pairwise_cons.2 ⟨?_, ih hs.2⟩
        intro c hc
        rcases mem_writeCells _ _ _ _ hc with ⟨rfl, -⟩ | hc
        · show b < a; omega
        · exact hs.1 c hc
  · intro c hc
    rcases mem_writeCells _ _ _ _ hc with ⟨rfl, h⟩ | hc
    · exact h
    · exact hn c hc

theorem Memory.write_bound (m : Memory) (a n : Nat) (v : Word) (h : ∀ c ∈ m.cells, c.1 < n) (ha : a < n) :
    ∀ c ∈ (m.write a v).cells, c.1 < n := by
  intro c hc
  rcases mem_writeCells _ _ _ _ hc with ⟨rfl, -⟩ | hc
  · exact ha
  · exact h c hc

theorem readCells_of_lt (cells : List (Nat × Word)) (a : Nat) (h : ∀ c ∈ cells, a < c.1) :
    readCells cells a = Memory.blank := by
  induction cells with
  | nil => rfl
  | cons d rest ih =>
    obtain ⟨b, u⟩ := d
    have hb : a < b := h _ (List.mem_cons_self ..)
    have := ih fun c hc => h c (List.mem_cons_of_mem _ hc)
    simp [readCells, hb.ne, this]

/-- Read after write. -/
theorem Memory.read_write (m : Memory) (a b : Nat) (v : Word) (h : m.wf) :
    (m.write a v).read b = if b = a then v else m.read b := by
  simp only [Memory.write, Memory.read]
  have hs := h.1
  generalize m.cells = cells at hs
  induction cells with
  | nil =>
    unfold writeCells
    split_ifs <;> simp_all [readCells]
  | cons d rest ih =>
    obtain ⟨c, u⟩ := d
    rw [List.pairwise_cons] at hs
    have blankAt : ∀ n ≤ c, readCells rest n = Memory.blank := fun n hn =>
      readCells_of_lt rest n fun e he => lt_of_le_of_lt hn (hs.1 e he)
    have ih := ih hs.2
    rw [writeCells]
    rcases lt_trichotomy a c with hac | hac | hac
    · by_cases hv : v = Memory.blank
      · by_cases hb : b = a
        · simp [hac, hv, hb, readCells, hac.ne, blankAt a hac.le]
        · simp [hac, hv, hb]
      · simp [hac, hv, readCells]
    · subst hac
      by_cases hv : v = Memory.blank
      · by_cases hb : b = a
        · simp [hv, hb, blankAt a le_rfl]
        · simp [hv, hb, readCells]
      · by_cases hb : b = a <;> simp [hv, hb, readCells]
    · by_cases hb : b = c
      · simp [hac.not_gt, hac.ne', hb, readCells, hac.ne]
      · simp [hac.not_gt, hac.ne', hb, readCells, ih]

@[simp] theorem Memory.read_empty (a : Nat) : Memory.read { cells := [] } a = 0 := rfl

/-- An image load keeps the canonical form, stays below the end of the image, and puts word `k` of it at `a + k`. -/
theorem loadFrom_spec (ws : List Word) (m : Memory) (a n : Nat) (h : m.wf) (hb : ∀ c ∈ m.cells, c.1 < n)
    (hn : a + ws.length ≤ n) :
    (loadFrom m a ws).wf ∧ (∀ c ∈ (loadFrom m a ws).cells, c.1 < n) ∧
    ∀ b, (loadFrom m a ws).read b = if a ≤ b ∧ b < a + ws.length then ws.getD (b - a) 0 else m.read b := by
  induction ws generalizing m a with
  | nil => exact ⟨h, hb, fun b => by
    simp only [loadFrom, List.length_nil, Nat.add_zero]
    rw [if_neg (by omega)]⟩
  | cons w ws ih =>
    simp only [List.length_cons] at hn
    obtain ⟨h1, h2, h3⟩ := ih (m.write a w) (a + 1) (Memory.write_wf _ _ _ h)
      (Memory.write_bound _ _ _ _ hb (by omega)) (by omega)
    refine ⟨h1, h2, fun b => ?_⟩
    simp only [loadFrom, h3, Memory.read_write _ _ _ _ h, List.length_cons]
    by_cases hba : b = a
    · subst hba
      rw [if_neg (by omega), if_pos rfl, if_pos (by omega)]
      simp
    · by_cases hin : a + 1 ≤ b ∧ b < a + 1 + ws.length
      · rw [if_pos hin, if_pos (by omega), show b - a = (b - (a + 1)) + 1 by omega, List.getD_cons_succ]
      · rw [if_neg hin, if_neg hba, if_neg (by omega)]

/-! ### The call stack -/

theorem pushRegs_eq (value : Nat → Word) (n : Nat) (st : List Word) :
    pushRegs value n st = ((List.range n).map value).reverse ++ st := by
  induction n with
  | zero => rfl
  | succ n ih =>
    simp only [pushRegs] at ih
    simp [pushRegs, List.range_succ, ih]

/-- What RET's loop leaves: the entries gone from the stack, and each in its register but the reserved one. -/
theorem popRegs_spec (reserved n : Nat) (st : List Word) (x : Regs) (hn : n ≤ 16) (hl : n ≤ st.length) :
    (popRegs reserved n st x).2 = st.drop n ∧
    ∀ r, readReg (popRegs reserved n st x).1 r =
      if r < n ∧ r ≠ reserved then st.getD (n - 1 - r) 0 else readReg x r := by
  induction n generalizing st x with
  | zero => simp [popRegs]
  | succ n ih =>
    cases st with
    | nil => simp at hl
    | cons w st =>
      simp only [List.length_cons] at hl
      obtain ⟨h1, h2⟩ := ih st (if n = reserved then x else writeReg x n w) (by omega) (by omega)
      refine ⟨by simpa [popRegs] using h1, fun r => ?_⟩
      simp only [popRegs, h2]
      by_cases hr : r < n
      · by_cases hres : r = reserved
        · subst hres
          simp only [ne_eq, not_true_eq_false, and_false, if_false]
          rw [if_neg (by omega), readReg_writeReg, if_neg (by omega)]
        · rw [if_pos ⟨hr, hres⟩, if_pos ⟨by omega, hres⟩, show n + 1 - 1 - r = (n - 1 - r) + 1 by omega,
            List.getD_cons_succ]
      · simp only [hr, false_and, if_false]
        by_cases hrn : r = n
        · subst hrn
          by_cases hres : r = reserved
          · simp [hres]
          · simp [hres, show r < 16 by omega]
        · have hlt : ¬r < n + 1 := by omega
          by_cases hres : n = reserved
          · simp [hres, show ¬r < reserved + 1 by omega]
          · simp [hres, hlt, Ne.symm hrn]

end Sys2Proof.Machine
end

