-- ==== Sys2Proof/Laws/State.lean ====
section
/-!
SUPPORT. One lemma per field per named update of State, so that no proof unfolds a record update.
-/

namespace Sys2Proof.Machine

@[simp] theorem State.takeFault_cfg (s : State) (f : FaultInfo) : (s.takeFault f).cfg = s.cfg := rfl
@[simp] theorem State.takeFault_regs (s : State) (f : FaultInfo) : (s.takeFault f).regs = s.regs := rfl
@[simp] theorem State.takeFault_pc (s : State) (f : FaultInfo) : (s.takeFault f).pc = s.pc := rfl
@[simp] theorem State.takeFault_spc (s : State) (f : FaultInfo) : (s.takeFault f).spc = s.spc := rfl
@[simp] theorem State.takeFault_lr (s : State) (f : FaultInfo) : (s.takeFault f).lr = s.lr := rfl
@[simp] theorem State.takeFault_mar (s : State) (f : FaultInfo) : (s.takeFault f).mar = s.mar := rfl
@[simp] theorem State.takeFault_mdr (s : State) (f : FaultInfo) : (s.takeFault f).mdr = s.mdr := rfl
@[simp] theorem State.takeFault_sr (s : State) (f : FaultInfo) : (s.takeFault f).sr = s.sr := rfl
@[simp] theorem State.takeFault_svc (s : State) (f : FaultInfo) : (s.takeFault f).svc = s.svc := rfl
@[simp] theorem State.takeFault_cyc (s : State) (f : FaultInfo) : (s.takeFault f).cyc = s.cyc := rfl
@[simp] theorem State.takeFault_fd (s : State) (f : FaultInfo) : (s.takeFault f).fd = s.fd := rfl
@[simp] theorem State.takeFault_di (s : State) (f : FaultInfo) : (s.takeFault f).di = s.di := rfl
@[simp] theorem State.takeFault_iq (s : State) (f : FaultInfo) : (s.takeFault f).iq = s.iq := rfl
@[simp] theorem State.takeFault_ew (s : State) (f : FaultInfo) : (s.takeFault f).ew = s.ew := rfl
@[simp] theorem State.takeFault_ctx (s : State) (f : FaultInfo) : (s.takeFault f).ctx = s.ctx := rfl
@[simp] theorem State.takeFault_stack (s : State) (f : FaultInfo) : (s.takeFault f).stack = s.stack := rfl
@[simp] theorem State.takeFault_mem (s : State) (f : FaultInfo) : (s.takeFault f).mem = s.mem := rfl
@[simp] theorem State.takeFault_status (s : State) (f : FaultInfo) : (s.takeFault f).status = .faulted f := rfl

@[simp] theorem State.retire_cfg (s : State) (i : Instr) (v : Word) : (s.retire i v).cfg = s.cfg := rfl
@[simp] theorem State.retire_regs (s : State) (i : Instr) (v : Word) : (s.retire i v).regs = s.regs := rfl
@[simp] theorem State.retire_pc (s : State) (i : Instr) (v : Word) : (s.retire i v).pc = s.pc := rfl
@[simp] theorem State.retire_spc (s : State) (i : Instr) (v : Word) : (s.retire i v).spc = s.spc := rfl
@[simp] theorem State.retire_lr (s : State) (i : Instr) (v : Word) : (s.retire i v).lr = s.lr := rfl
@[simp] theorem State.retire_mar (s : State) (i : Instr) (v : Word) : (s.retire i v).mar = s.mar := rfl
@[simp] theorem State.retire_mdr (s : State) (i : Instr) (v : Word) : (s.retire i v).mdr = s.mdr := rfl
@[simp] theorem State.retire_sr (s : State) (i : Instr) (v : Word) : (s.retire i v).sr = s.sr := rfl
@[simp] theorem State.retire_svc (s : State) (i : Instr) (v : Word) : (s.retire i v).svc = s.svc := rfl
@[simp] theorem State.retire_cyc (s : State) (i : Instr) (v : Word) : (s.retire i v).cyc = s.cyc := rfl
@[simp] theorem State.retire_fd (s : State) (i : Instr) (v : Word) : (s.retire i v).fd = s.fd := rfl
@[simp] theorem State.retire_di (s : State) (i : Instr) (v : Word) : (s.retire i v).di = s.di := rfl
@[simp] theorem State.retire_iq (s : State) (i : Instr) (v : Word) : (s.retire i v).iq = s.iq := rfl
@[simp] theorem State.retire_ew (s : State) (i : Instr) (v : Word) : (s.retire i v).ew = { s.executing with instr := i, wbValue := v } := rfl
@[simp] theorem State.retire_ctx (s : State) (i : Instr) (v : Word) : (s.retire i v).ctx = { s.ctx with branchTaken := false } := rfl
@[simp] theorem State.retire_stack (s : State) (i : Instr) (v : Word) : (s.retire i v).stack = s.stack := rfl
@[simp] theorem State.retire_mem (s : State) (i : Instr) (v : Word) : (s.retire i v).mem = s.mem := rfl
@[simp] theorem State.retire_status (s : State) (i : Instr) (v : Word) : (s.retire i v).status = s.status := rfl

@[simp] theorem State.retireBranch_cfg (s : State) (i : Instr) : (s.retireBranch i).cfg = s.cfg := rfl
@[simp] theorem State.retireBranch_regs (s : State) (i : Instr) : (s.retireBranch i).regs = s.regs := rfl
@[simp] theorem State.retireBranch_pc (s : State) (i : Instr) : (s.retireBranch i).pc = s.pc := rfl
@[simp] theorem State.retireBranch_spc (s : State) (i : Instr) : (s.retireBranch i).spc = s.spc := rfl
@[simp] theorem State.retireBranch_lr (s : State) (i : Instr) : (s.retireBranch i).lr = s.lr := rfl
@[simp] theorem State.retireBranch_mar (s : State) (i : Instr) : (s.retireBranch i).mar = s.mar := rfl
@[simp] theorem State.retireBranch_mdr (s : State) (i : Instr) : (s.retireBranch i).mdr = s.mdr := rfl
@[simp] theorem State.retireBranch_sr (s : State) (i : Instr) : (s.retireBranch i).sr = s.sr := rfl
@[simp] theorem State.retireBranch_svc (s : State) (i : Instr) : (s.retireBranch i).svc = s.svc := rfl
@[simp] theorem State.retireBranch_cyc (s : State) (i : Instr) : (s.retireBranch i).cyc = s.cyc := rfl
@[simp] theorem State.retireBranch_fd (s : State) (i : Instr) : (s.retireBranch i).fd = s.fd := rfl
@[simp] theorem State.retireBranch_di (s : State) (i : Instr) : (s.retireBranch i).di = s.di := rfl
@[simp] theorem State.retireBranch_iq (s : State) (i : Instr) : (s.retireBranch i).iq = s.iq := rfl
@[simp] theorem State.retireBranch_ew (s : State) (i : Instr) : (s.retireBranch i).ew = { s.executing with instr := i } := rfl
@[simp] theorem State.retireBranch_ctx (s : State) (i : Instr) : (s.retireBranch i).ctx = Context.initial := rfl
@[simp] theorem State.retireBranch_stack (s : State) (i : Instr) : (s.retireBranch i).stack = s.stack := rfl
@[simp] theorem State.retireBranch_mem (s : State) (i : Instr) : (s.retireBranch i).mem = s.mem := rfl
@[simp] theorem State.retireBranch_status (s : State) (i : Instr) : (s.retireBranch i).status = s.status := rfl

@[simp] theorem State.redirect_cfg (s : State) (target : Word) : (s.redirect target).cfg = s.cfg := rfl
@[simp] theorem State.redirect_regs (s : State) (target : Word) : (s.redirect target).regs = s.regs := rfl
@[simp] theorem State.redirect_pc (s : State) (target : Word) : (s.redirect target).pc = s.pc := rfl
@[simp] theorem State.redirect_spc (s : State) (target : Word) : (s.redirect target).spc = s.spc := rfl
@[simp] theorem State.redirect_lr (s : State) (target : Word) : (s.redirect target).lr = s.lr := rfl
@[simp] theorem State.redirect_mar (s : State) (target : Word) : (s.redirect target).mar = s.mar := rfl
@[simp] theorem State.redirect_mdr (s : State) (target : Word) : (s.redirect target).mdr = s.mdr := rfl
@[simp] theorem State.redirect_sr (s : State) (target : Word) : (s.redirect target).sr = s.sr := rfl
@[simp] theorem State.redirect_svc (s : State) (target : Word) : (s.redirect target).svc = s.svc := rfl
@[simp] theorem State.redirect_cyc (s : State) (target : Word) : (s.redirect target).cyc = s.cyc := rfl
@[simp] theorem State.redirect_fd (s : State) (target : Word) : (s.redirect target).fd = s.fd := rfl
@[simp] theorem State.redirect_di (s : State) (target : Word) : (s.redirect target).di = s.di := rfl
@[simp] theorem State.redirect_iq (s : State) (target : Word) : (s.redirect target).iq = s.iq := rfl
@[simp] theorem State.redirect_ew (s : State) (target : Word) : (s.redirect target).ew = s.ew := rfl
@[simp] theorem State.redirect_ctx (s : State) (target : Word) : (s.redirect target).ctx = { branchTaken := true, branchTarget := target, correctPrediction := false } := rfl
@[simp] theorem State.redirect_stack (s : State) (target : Word) : (s.redirect target).stack = s.stack := rfl
@[simp] theorem State.redirect_mem (s : State) (target : Word) : (s.redirect target).mem = s.mem := rfl
@[simp] theorem State.redirect_status (s : State) (target : Word) : (s.redirect target).status = s.status := rfl

section
variable (s : State) (rec : Record) (imm : Imm16)

@[simp] theorem State.takeUnlessPredicted_cfg : (s.takeUnlessPredicted rec imm).cfg = s.cfg := by
  unfold State.takeUnlessPredicted; split <;> rfl
@[simp] theorem State.takeUnlessPredicted_regs : (s.takeUnlessPredicted rec imm).regs = s.regs := by
  unfold State.takeUnlessPredicted; split <;> rfl
@[simp] theorem State.takeUnlessPredicted_pc : (s.takeUnlessPredicted rec imm).pc = s.pc := by
  unfold State.takeUnlessPredicted; split <;> rfl
@[simp] theorem State.takeUnlessPredicted_spc : (s.takeUnlessPredicted rec imm).spc = s.spc := by
  unfold State.takeUnlessPredicted; split <;> rfl
@[simp] theorem State.takeUnlessPredicted_lr : (s.takeUnlessPredicted rec imm).lr = s.lr := by
  unfold State.takeUnlessPredicted; split <;> rfl
@[simp] theorem State.takeUnlessPredicted_mar : (s.takeUnlessPredicted rec imm).mar = s.mar := by
  unfold State.takeUnlessPredicted; split <;> rfl
@[simp] theorem State.takeUnlessPredicted_mdr : (s.takeUnlessPredicted rec imm).mdr = s.mdr := by
  unfold State.takeUnlessPredicted; split <;> rfl
@[simp] theorem State.takeUnlessPredicted_sr : (s.takeUnlessPredicted rec imm).sr = s.sr := by
  unfold State.takeUnlessPredicted; split <;> rfl
@[simp] theorem State.takeUnlessPredicted_svc : (s.takeUnlessPredicted rec imm).svc = s.svc := by
  unfold State.takeUnlessPredicted; split <;> rfl
@[simp] theorem State.takeUnlessPredicted_cyc : (s.takeUnlessPredicted rec imm).cyc = s.cyc := by
  unfold State.takeUnlessPredicted; split <;> rfl
@[simp] theorem State.takeUnlessPredicted_fd : (s.takeUnlessPredicted rec imm).fd = s.fd := by
  unfold State.takeUnlessPredicted; split <;> rfl
@[simp] theorem State.takeUnlessPredicted_di : (s.takeUnlessPredicted rec imm).di = s.di := by
  unfold State.takeUnlessPredicted; split <;> rfl
@[simp] theorem State.takeUnlessPredicted_iq : (s.takeUnlessPredicted rec imm).iq = s.iq := by
  unfold State.takeUnlessPredicted; split <;> rfl
@[simp] theorem State.takeUnlessPredicted_ew : (s.takeUnlessPredicted rec imm).ew = s.ew := by
  unfold State.takeUnlessPredicted; split <;> rfl
@[simp] theorem State.takeUnlessPredicted_stack : (s.takeUnlessPredicted rec imm).stack = s.stack := by
  unfold State.takeUnlessPredicted; split <;> rfl
@[simp] theorem State.takeUnlessPredicted_mem : (s.takeUnlessPredicted rec imm).mem = s.mem := by
  unfold State.takeUnlessPredicted; split <;> rfl
@[simp] theorem State.takeUnlessPredicted_status : (s.takeUnlessPredicted rec imm).status = s.status := by
  unfold State.takeUnlessPredicted; split <;> rfl

end

@[simp] theorem State.takeFault_raised (s : State) (f : FaultInfo) : (s.takeFault f).raised = some f := rfl

@[simp] theorem State.executing_nil (s : State) (h : s.iq = []) : s.executing = Record.nop := by
  simp [State.executing, h]

@[simp] theorem State.executing_cons (s : State) (r : Record) (rest : List Record) (h : s.iq = r :: rest) :
    s.executing = r := by
  simp [State.executing, h]

/-- A state stands at a fault exactly when its STATUS is Faulted. -/
theorem State.raised_eq_some (s : State) (f : FaultInfo) : s.raised = some f ↔ s.status = .faulted f := by
  cases h : s.status <;> simp [State.raised, h]

theorem State.raised_of_running (s : State) (h : s.status = .running) : s.raised = none := by
  simp [State.raised, h]

end Sys2Proof.Machine
end

