-- ==== Sys2Proof/Laws/Ops.lean ====
section
/-!
SUPPORT. What each shared operation of Execute can do, said once, so that no proof unfolds one.
-/

namespace Sys2Proof.Machine

/-! ### Concluding, checking -/

@[simp] theorem State.conclude_ok (s t : State) : s.conclude (.ok t) = .next t := rfl
@[simp] theorem State.conclude_error (s : State) (f : FaultInfo) : s.conclude (.error f) = .next (s.takeFault f) := rfl

/-- Execute's computations end in a next state, one way or the other. -/
theorem State.conclude_cases (s : State) (e : Except FaultInfo State) :
    (∃ t, e = .ok t ∧ s.conclude e = .next t) ∨ ∃ f, e = .error f ∧ s.conclude e = .next (s.takeFault f) := by
  cases e <;> simp

theorem State.checkReg_ok {s : State} {n : Nat} (st : Stage) (loc : Word) (h : n < s.cfg.numGpr) :
    s.checkReg st loc n = .ok () := by
  simp [State.checkReg, h]

theorem State.checkReg_missing {s : State} {n : Nat} (st : Stage) (loc : Word) (h : s.cfg.numGpr ≤ n) :
    s.checkReg st loc n = .error ⟨.registerFault, st, .register n, some loc⟩ := by
  simp [State.checkReg, Nat.not_lt.2 h]

theorem Config.inRange_iff (c : Config) (a : Word) : c.inRange a = true ↔ 0 ≤ a.toInt ∧ a.toInt < c.memWords := by
  simp [Config.inRange]

theorem State.memRead_ok {s : State} {a : Word} (st : Stage) (loc : Option Word) (h : s.cfg.inRange a = true) :
    s.memRead st loc a = .ok (s.mem.read a.toNat) := by
  simp [State.memRead, State.checkAddr, h, Except.map]

theorem State.memRead_out {s : State} {a : Word} (st : Stage) (loc : Option Word) (h : s.cfg.inRange a = false) :
    s.memRead st loc a = .error ⟨.memoryFault, st, .address a.toInt, loc⟩ := by
  simp [State.memRead, State.checkAddr, h, Except.map]

theorem State.memWrite_ok {s : State} {a : Word} (st : Stage) (loc : Option Word) (v : Word)
    (h : s.cfg.inRange a = true) : s.memWrite st loc a v = .ok (s.mem.write a.toNat v) := by
  simp [State.memWrite, State.checkAddr, h, Except.map]

theorem State.memWrite_out {s : State} {a : Word} (st : Stage) (loc : Option Word) (v : Word)
    (h : s.cfg.inRange a = false) : s.memWrite st loc a v = .error ⟨.memoryFault, st, .address a.toInt, loc⟩ := by
  simp [State.memWrite, State.checkAddr, h, Except.map]

/-! ### Forwarding -/

/-- "The result of level 1 is always x[r]" (R156), so the captured value never shows. -/
theorem State.fwdValue_eq (s : State) (r : RegIdx) (v : Word) : s.fwdValue r v = s.operand r := by
  unfold State.fwdValue State.operand
  by_cases h : v = readReg s.regs r.toNat <;> simp [h]

theorem State.lateValue_eq (s : State) (r : RegIdx) : s.lateValue r = s.lateOperand r := by
  simp [State.lateValue, State.lateOperand, State.fwdValue_eq]

section
variable {s : State} {r : RegIdx}

theorem State.op1_ok (h : r.toNat < s.cfg.numGpr) : s.op1 r = .ok (s.operand r) := by
  simp [State.op1, State.fwd, State.checkReg_ok _ _ h, State.fwdValue_eq, Except.map]

theorem State.op2_ok (h : r.toNat < s.cfg.numGpr) : s.op2 r = .ok (s.operand r) := by
  simp [State.op2, State.fwd, State.checkReg_ok _ _ h, State.fwdValue_eq, Except.map]

theorem State.storeBase_ok (h : r.toNat < s.cfg.numGpr) : s.storeBase r = .ok (s.lateOperand r) := by
  simp [State.storeBase, State.checkReg_ok _ _ h, State.lateValue_eq, Except.map]

theorem State.op1_missing (h : s.cfg.numGpr ≤ r.toNat) :
    s.op1 r = .error ⟨.registerFault, .execute, .register r.toNat, some s.executing.fetchLoc⟩ := by
  simp [State.op1, State.fwd, State.checkReg_missing _ _ h, Except.map]

theorem State.op2_missing (h : s.cfg.numGpr ≤ r.toNat) :
    s.op2 r = .error ⟨.registerFault, .execute, .register r.toNat, some s.executing.fetchLoc⟩ := by
  simp [State.op2, State.fwd, State.checkReg_missing _ _ h, Except.map]

theorem State.storeBase_missing (h : s.cfg.numGpr ≤ r.toNat) :
    s.storeBase r = .error ⟨.registerFault, .execute, .register r.toNat, some s.executing.fetchLoc⟩ := by
  simp [State.storeBase, State.checkReg_missing _ _ h, Except.map]

end

/-! ### The shapes of the meanings -/

section
variable {s : State} {a b : RegIdx}

theorem aluRegReg_ok (i : Instr) (f : Word → Word → Word) (ha : a.toNat < s.cfg.numGpr) (hb : b.toNat < s.cfg.numGpr) :
    aluRegReg i a b f s = .next (s.retire i (f (s.operand a) (s.operand b))) := by
  simp [aluRegReg, State.op1_ok ha, State.op2_ok hb, bind, Except.bind, pure, Except.pure]

theorem aluReg_ok (i : Instr) (f : Word → Word) (ha : a.toNat < s.cfg.numGpr) :
    aluReg i a f s = .next (s.retire i (f (s.operand a))) := by
  simp [aluReg, State.op1_ok ha, bind, Except.bind, pure, Except.pure]

theorem condBranch_ok (i : Instr) (imm : Imm16) (cond : Word → Word → Bool) (ha : a.toNat < s.cfg.numGpr)
    (hb : b.toNat < s.cfg.numGpr) :
    condBranch i a b imm cond s = .next
      (if cond (s.operand a) (s.operand b) = s.executing.predTaken then s.retireBranch i
       else (s.retireBranch i).redirect
        (if cond (s.operand a) (s.operand b) then branchTarget s.executing.fetchLoc imm
         else nextLoc s.executing.fetchLoc)) := by
  simp only [condBranch, State.op1_ok ha, State.op2_ok hb, bind, Except.bind, pure, Except.pure]
  split <;> simp

/-- Where the first operand's register does not exist, all three shapes answer its fault. -/
theorem aluRegReg_missing1 (i : Instr) (f : Word → Word → Word) (h : s.cfg.numGpr ≤ a.toNat) :
    aluRegReg i a b f s =
      .next (s.takeFault ⟨.registerFault, .execute, .register a.toNat, some s.executing.fetchLoc⟩) := by
  simp [aluRegReg, State.op1_missing h, bind, Except.bind]

theorem aluRegReg_missing2 (i : Instr) (f : Word → Word → Word) (ha : a.toNat < s.cfg.numGpr)
    (h : s.cfg.numGpr ≤ b.toNat) :
    aluRegReg i a b f s =
      .next (s.takeFault ⟨.registerFault, .execute, .register b.toNat, some s.executing.fetchLoc⟩) := by
  simp [aluRegReg, State.op1_ok ha, State.op2_missing h, bind, Except.bind]

theorem aluReg_missing (i : Instr) (f : Word → Word) (h : s.cfg.numGpr ≤ a.toNat) :
    aluReg i a f s =
      .next (s.takeFault ⟨.registerFault, .execute, .register a.toNat, some s.executing.fetchLoc⟩) := by
  simp [aluReg, State.op1_missing h, bind, Except.bind]

theorem condBranch_missing1 (i : Instr) (imm : Imm16) (cond : Word → Word → Bool) (h : s.cfg.numGpr ≤ a.toNat) :
    condBranch i a b imm cond s =
      .next (s.takeFault ⟨.registerFault, .execute, .register a.toNat, some s.executing.fetchLoc⟩) := by
  simp [condBranch, State.op1_missing h, bind, Except.bind]

theorem condBranch_missing2 (i : Instr) (imm : Imm16) (cond : Word → Word → Bool) (ha : a.toNat < s.cfg.numGpr)
    (h : s.cfg.numGpr ≤ b.toNat) :
    condBranch i a b imm cond s =
      .next (s.takeFault ⟨.registerFault, .execute, .register b.toNat, some s.executing.fetchLoc⟩) := by
  simp [condBranch, State.op1_ok ha, State.op2_missing h, bind, Except.bind]

end

/-- BU and BL: the state as it is, or a redirect to the target. -/
theorem State.takeUnlessPredicted_cases (s : State) (rec : Record) (imm : Imm16) :
    (rec.predTaken = true ∧ s.takeUnlessPredicted rec imm = s) ∨
    (rec.predTaken = false ∧ s.takeUnlessPredicted rec imm = s.redirect (branchTarget rec.fetchLoc imm)) := by
  cases h : rec.predTaken <;> simp [State.takeUnlessPredicted, h]

end Sys2Proof.Machine
end

