-- ==== Sys2Proof/Laws/Cycle.lean ====
section
/-!
SUPPORT. What one cycle can do, said once: the inversion of `step`, of the front end and of Writeback, and the fields
of the state a cycle commits.
-/

namespace Sys2Proof.Machine

/-- A `next` of `step` comes from a running core and is either a fault taken from the start of the cycle, raised by
one of the five stages, or the commit of a cycle in which no stage faulted. -/
theorem step_next_cases {s u : State} (h : step s = .next u) :
    s.status = .running ∧ ∃ t, exec s.executing.instr s = .next t ∧
      ((∃ f, u = s.takeFault f ∧
          (frontEnd s = .error f ∨
            ∃ fe, frontEnd s = .ok fe ∧ (t.raised = some f ∨ (t.raised = none ∧ writeback s = .error f)))) ∨
       ∃ fe wb, frontEnd s = .ok fe ∧ t.raised = none ∧ writeback s = .ok wb ∧
          u = commitCycle t s.executing.instr fe wb) := by
  unfold step at h
  split at h <;> try contradiction
  rename_i hs
  refine ⟨hs, ?_⟩
  cases he : exec s.executing.instr s with
  | fault r => simp [he, finishCycle] at h
  | refused r => simp [he, finishCycle] at h
  | next t =>
    refine ⟨t, rfl, ?_⟩
    simp only [he, finishCycle, Host.Outcome.next.injEq] at h
    subst h
    cases hf : frontEnd s with
    | error f => exact .inl ⟨f, by simp [endOfCycle, hf], .inl rfl⟩
    | ok fe =>
      cases hr : t.raised with
      | some f => exact .inl ⟨f, by simp [endOfCycle, hf, hr], .inr ⟨fe, rfl, .inl rfl⟩⟩
      | none =>
        cases hw : writeback s with
        | error f => exact .inl ⟨f, by simp [endOfCycle, hf, hr, hw], .inr ⟨fe, rfl, .inr ⟨rfl, rfl⟩⟩⟩
        | ok wb => exact .inr ⟨fe, wb, rfl, rfl, rfl, by simp [endOfCycle, hf, hr, hw]⟩

/-- What the front end writes when it does not fault: the three stages' results, or the hold of R152. -/
theorem frontEnd_ok_cases {s : State} {fe : FrontEnd} (h : frontEnd s = .ok fe) :
    (s.isReady = true ∧ ∃ f d q, fetch s = .ok f ∧ decodeStage s = .ok d ∧ issue s = .ok q ∧
      fe = ⟨f.1, d, [q], f.2⟩) ∨
    (s.isReady = false ∧ fe = ⟨s.fd, { s.di with depFlag := true }, [], s.pc⟩) := by
  unfold frontEnd at h
  cases hr : s.isReady with
  | false => simp [hr, pure, Except.pure] at h; exact .inr ⟨rfl, h.symm⟩
  | true =>
    cases hf : fetch s <;> cases hd : decodeStage s <;> cases hq : issue s <;>
      simp [hr, hf, hd, hq, bind, Except.bind, pure, Except.pure] at h
    exact .inl ⟨rfl, _, _, _, rfl, rfl, rfl, h.symm⟩

/-- What Fetch answers when it does not fault (R144 to R146). -/
theorem fetch_ok_cases {s : State} {f : FetchLatch × Word} (h : fetch s = .ok f) :
    s.cfg.inRange s.pc = true ∧ f.1.word = s.mem.read s.pc.toNat ∧ f.1.fetchLoc = s.pc ∧
    ∃ m, s.cfg.encoding.mnem (s.cfg.encoding.opcodeField f.1.word) = some m ∧
      f.1.predTaken = predict m (s.cfg.encoding.imm m.format f.1.word) ∧
      f.2 = shadowPc m s.pc (s.cfg.encoding.imm m.format f.1.word) := by
  unfold fetch at h
  cases hin : s.cfg.inRange s.pc
  · simp [State.memRead_out _ _ hin, bind, Except.bind] at h
  · simp only [State.memRead_ok _ _ hin, bind, Except.bind, pure, Except.pure] at h
    split at h <;> cases h
    exact ⟨rfl, rfl, rfl, _, ‹_›, rfl, rfl⟩

/-- What Decode answers when it does not fault (R148). -/
theorem decodeStage_ok_cases {s : State} {d : Record} (h : decodeStage s = .ok d) :
    decode s.cfg.encoding s.fd.word = .ok d.instr ∧ d = ⟨d.instr, 0, 0, 0, s.fd.fetchLoc, s.fd.predTaken, false⟩ := by
  unfold decodeStage at h
  cases hd : decode s.cfg.encoding s.fd.word <;> simp only [hd] at h <;> cases h
  exact ⟨rfl, rfl⟩

/-- What Issue leaves as it was when it does not fault (R150, R151). -/
theorem issue_ok_cases {s : State} {q : Record} (h : issue s = .ok q) :
    q.instr = s.di.instr ∧ q.fetchLoc = s.di.fetchLoc ∧ q.predTaken = s.di.predTaken ∧ q.depFlag = false := by
  revert h
  unfold issue
  dsimp only
  cases issueReads s.di.instr <;> simp only [bind, Except.bind, pure, Except.pure]
  · cases s.checkReg .issue s.di.fetchLoc s.di.instr.src1.toNat <;>
      cases s.checkReg .issue s.di.fetchLoc s.di.instr.src2.toNat <;> simp
    rintro rfl; simp
  · cases s.checkReg .issue s.di.fetchLoc s.di.instr.src1.toNat <;> simp
    rintro rfl; simp
  · simp; rintro rfl; simp

/-- What Writeback schedules when it does not fault (R163, R164). -/
theorem writeback_ok_cases {s : State} {wb : Option (RegIdx × Word)} (h : writeback s = .ok wb) :
    (s.ew.instr.wbWrites = false ∧ wb = none) ∨
    (s.ew.instr.wbWrites = true ∧ s.ew.instr.dest.toNat ≠ s.cfg.reservedReg ∧
      s.ew.instr.dest.toNat < s.cfg.numGpr ∧ wb = some (s.ew.instr.dest, s.ew.wbValue)) := by
  unfold writeback at h
  cases hw : s.ew.instr.wbWrites with
  | false => simp [hw, pure, Except.pure] at h; exact .inl ⟨rfl, h.symm⟩
  | true =>
    by_cases hd : s.ew.instr.dest.toNat = s.cfg.reservedReg
    · simp [hw, hd] at h
    · by_cases hn : s.ew.instr.dest.toNat < s.cfg.numGpr
      · simp [hw, hd, State.checkReg_ok _ _ hn, bind, Except.bind, pure, Except.pure] at h
        exact .inr ⟨rfl, hd, hn, h.symm⟩
      · simp [hw, hd, State.checkReg_missing _ _ (Nat.not_lt.1 hn), bind, Except.bind] at h

/-! ### The fields of a committed cycle -/

section
variable (t : State) (i : Instr) (fe : FrontEnd) (wb : Option (RegIdx × Word))

@[simp] theorem commitCycle_cfg : (commitCycle t i fe wb).cfg = t.cfg := by
  cases h : t.ctx.branchTaken <;> simp [commitCycle, State.reconcile, h]
@[simp] theorem commitCycle_regs : (commitCycle t i fe wb).regs = commitRegs t.cfg i t.regs wb := by
  cases h : t.ctx.branchTaken <;> simp [commitCycle, State.reconcile, h]
@[simp] theorem commitCycle_pc :
    (commitCycle t i fe wb).pc = if t.ctx.branchTaken then t.ctx.branchTarget else fe.spc := by
  cases h : t.ctx.branchTaken <;> simp [commitCycle, State.reconcile, h]
@[simp] theorem commitCycle_spc : (commitCycle t i fe wb).spc = fe.spc := by
  cases h : t.ctx.branchTaken <;> simp [commitCycle, State.reconcile, h]
@[simp] theorem commitCycle_lr : (commitCycle t i fe wb).lr = t.lr := by
  cases h : t.ctx.branchTaken <;> simp [commitCycle, State.reconcile, h]
@[simp] theorem commitCycle_mar : (commitCycle t i fe wb).mar = t.mar := by
  cases h : t.ctx.branchTaken <;> simp [commitCycle, State.reconcile, h]
@[simp] theorem commitCycle_mdr : (commitCycle t i fe wb).mdr = t.mdr := by
  cases h : t.ctx.branchTaken <;> simp [commitCycle, State.reconcile, h]
@[simp] theorem commitCycle_sr : (commitCycle t i fe wb).sr = t.sr := by
  cases h : t.ctx.branchTaken <;> simp [commitCycle, State.reconcile, h]
@[simp] theorem commitCycle_svc : (commitCycle t i fe wb).svc = t.svc := by
  cases h : t.ctx.branchTaken <;> simp [commitCycle, State.reconcile, h]
@[simp] theorem commitCycle_cyc : (commitCycle t i fe wb).cyc = t.cyc + 1 := by
  cases h : t.ctx.branchTaken <;> simp [commitCycle, State.reconcile, h]
@[simp] theorem commitCycle_fd :
    (commitCycle t i fe wb).fd = if t.ctx.branchTaken then FetchLatch.flushed else fe.fd := by
  cases h : t.ctx.branchTaken <;> simp [commitCycle, State.reconcile, h]
@[simp] theorem commitCycle_di : (commitCycle t i fe wb).di = if t.ctx.branchTaken then Record.nop else fe.di := by
  cases h : t.ctx.branchTaken <;> simp [commitCycle, State.reconcile, h]
@[simp] theorem commitCycle_iq : (commitCycle t i fe wb).iq = if t.ctx.branchTaken then [] else fe.iq := by
  cases h : t.ctx.branchTaken <;> simp [commitCycle, State.reconcile, h]
@[simp] theorem commitCycle_ew : (commitCycle t i fe wb).ew = t.ew := by
  cases h : t.ctx.branchTaken <;> simp [commitCycle, State.reconcile, h]
@[simp] theorem commitCycle_ctx : (commitCycle t i fe wb).ctx = t.ctx := by
  cases h : t.ctx.branchTaken <;> simp [commitCycle, State.reconcile, h]
@[simp] theorem commitCycle_stack : (commitCycle t i fe wb).stack = t.stack := by
  cases h : t.ctx.branchTaken <;> simp [commitCycle, State.reconcile, h]
@[simp] theorem commitCycle_mem : (commitCycle t i fe wb).mem = t.mem := by
  cases h : t.ctx.branchTaken <;> simp [commitCycle, State.reconcile, h]
@[simp] theorem commitCycle_status :
    (commitCycle t i fe wb).status =
      if t.svc = t.cfg.svcEop then .halted
      else if t.cfg.maxCycles ≤ (t.cyc + 1).toNat then .limitReached else .running := by
  cases h : t.ctx.branchTaken <;> simp [commitCycle, State.reconcile, endStatus, h]

end

end Sys2Proof.Machine
end

