-- ==== Sys2Proof/Laws/Encode.lean ====
section
/-!
SUPPORT. Fields of a word, and the encoder of each format against the field readers and the unused mask: every field
is read back as it was written, and every must-be-0 bit is 0, in every well-formed layout.
-/

namespace Sys2Proof

/-! ### One field -/

theorem getLsbD_getField (n lo : Nat) (w : Word) (k : Nat) :
    (getField n lo w).getLsbD k = (decide (k < n) && w.getLsbD (lo + k)) := by
  simp [getField]

theorem getLsbD_putField {n : Nat} (lo : Nat) (v : BitVec n) (k : Nat) :
    (putField lo v).getLsbD k = (decide (k < 32) && decide (lo ≤ k) && v.getLsbD (k - lo)) := by
  by_cases h : k < lo
  · simp [putField, h, Nat.not_le.2 h]
  · simp only [putField, BitVec.getLsbD_shiftLeft, BitVec.getLsbD_setWidth, h]
    by_cases h' : k < 32
    · simp [h', Nat.not_lt.1 h, Nat.lt_of_le_of_lt (Nat.sub_le k lo) h']
    · simp [h']

@[simp] theorem getField_or (n lo : Nat) (v w : Word) :
    getField n lo (v ||| w) = getField n lo v ||| getField n lo w := by
  apply BitVec.eq_of_getLsbD_eq
  intro k _
  simp only [getLsbD_getField, BitVec.getLsbD_or]
  cases decide (k < n) <;> simp

/-- A field reads as it was written. -/
theorem getField_putField {n lo : Nat} (v : BitVec n) (h : lo + n ≤ 32) : getField n lo (putField lo v) = v := by
  apply BitVec.eq_of_getLsbD_eq
  intro k hk
  simp only [getLsbD_getField, getLsbD_putField, Nat.add_sub_cancel_left]
  simp [hk, show lo + k < 32 by omega]

/-- A field reads 0 where only a field apart from it was written. -/
theorem getField_putField_apart {n lo m lo' : Nat} (v : BitVec m) (h : lo + n ≤ lo' ∨ lo' + m ≤ lo) :
    getField n lo (putField lo' v) = 0 := by
  apply BitVec.eq_of_getLsbD_eq
  intro k hk
  rw [getLsbD_getField, getLsbD_putField, show (0 : BitVec n).getLsbD k = false by simp]
  rcases h with h | h
  · simp [show ¬lo' ≤ lo + k by omega]
  · simp [BitVec.getLsbD_of_ge v (lo + k - lo') (by omega)]

/-! ### The bits of a list of fields -/

theorem getLsbD_fieldMask (fs : List (Nat × Nat)) {k : Nat} (hk : k < 32) :
    (fieldMask fs).getLsbD k = fs.any fun f => decide (f.1 ≤ k) && decide (k < f.1 + f.2) := by
  induction fs with
  | nil => simp [fieldMask]
  | cons f rest ih =>
    simp only [fieldMask, BitVec.getLsbD_or, getLsbD_putField, ih, List.any_cons, BitVec.getLsbD_allOnes]
    congr 1
    by_cases h : f.1 ≤ k <;> simp [hk, h]
    omega

/-- A must-be-0 bit is one in no field of the format (R108, R112). -/
theorem FieldLayout.getLsbD_unusedMask (l : FieldLayout) (f : Format) {k : Nat} (hk : k < 32) :
    (l.unusedMask f).getLsbD k = true ↔ ∀ x ∈ l.fields f, k < x.1 ∨ x.1 + x.2 ≤ k := by
  simp only [FieldLayout.unusedMask, BitVec.getLsbD_not, getLsbD_fieldMask _ hk, hk, decide_true, Bool.true_and,
    Bool.not_eq_true', List.any_eq_false, Bool.and_eq_true, decide_eq_true_eq, not_and, not_lt]
  exact forall₂_congr fun x _ => ⟨fun h => by omega, fun h => by omega⟩

/-- A word has no bit in the unused mask exactly where each of its bits stands in a field. -/
theorem FieldLayout.and_unusedMask_eq_zero (l : FieldLayout) (f : Format) (w : Word) :
    w &&& l.unusedMask f = 0 ↔
      ∀ k < 32, w.getLsbD k = true → ∃ x ∈ l.fields f, x.1 ≤ k ∧ k < x.1 + x.2 := by
  constructor
  · intro h k hk hw
    by_contra hx
    have := congrArg (·.getLsbD k) h
    have hm := (l.getLsbD_unusedMask f hk).2 fun x hxm => by
      by_contra hn; exact hx ⟨x, hxm, by omega⟩
    simp [hw, hm] at this
  · intro h
    apply BitVec.eq_of_getLsbD_eq
    intro k hk
    by_contra hb
    have hb : w.getLsbD k = true ∧ (l.unusedMask f).getLsbD k = true := by simpa using hb
    obtain ⟨x, hx, h1, h2⟩ := h k hk hb.1
    have := (l.getLsbD_unusedMask f hk).1 hb.2 x hx
    omega

/-- A field of the format contributes no unused bit. -/
theorem FieldLayout.putField_unused {l : FieldLayout} {f : Format} {n lo : Nat} (v : BitVec n)
    (h : (lo, n) ∈ l.fields f) : putField lo v &&& l.unusedMask f = 0 := by
  rw [FieldLayout.and_unusedMask_eq_zero]
  intro k hk hv
  refine ⟨_, h, ?_⟩
  rw [getLsbD_putField] at hv
  have hlo : lo ≤ k := by simp at hv; exact hv.1.2
  refine ⟨hlo, ?_⟩
  by_contra hn
  simp [BitVec.getLsbD_of_ge v (k - lo) (by simp at hn; omega)] at hv

@[simp] theorem or_and_word (u v m : Word) : (u ||| v) &&& m = u &&& m ||| v &&& m := by
  apply BitVec.eq_of_getLsbD_eq
  intro k _
  simp [Bool.and_or_distrib_right]

/-! ### Well-formed encodings -/

theorem FieldLayout.wfFormat_of_wf {l : FieldLayout} (h : l.wf = true) (f : Format) : l.wfFormat f = true := by
  cases f <;> simp_all [FieldLayout.wf]

/-- In a well-formed layout the fields of a format stand inside the word, and any two of them apart. -/
theorem FieldLayout.wf_fields {l : FieldLayout} (h : l.wf = true) (f : Format) :
    (∀ x ∈ l.fields f, x.1 + x.2 ≤ 32) ∧
    (l.fields f).Pairwise fun x y => x.1 + x.2 ≤ y.1 ∨ y.1 + y.2 ≤ x.1 := by
  have := FieldLayout.wfFormat_of_wf h f
  simpa [FieldLayout.wfFormat, fieldsApart] using this

section
variable {e : Encoding}

theorem Encoding.wf_layout (h : e.wf = true) : e.layout.wf = true := by
  simp only [Encoding.wf, Bool.and_eq_true] at h; exact h.1.1

theorem Encoding.wf_perm (h : e.wf = true) : e.opcodeMap.Perm opcodeMapSpec := by
  simp only [Encoding.wf, Bool.and_eq_true] at h; exact List.isPerm_iff.1 h.1.2

/-- NOP has opcode 0 (R60). -/
theorem Encoding.mnem_zero (h : e.wf = true) : e.mnem 0 = some .NOP := by
  simp only [Encoding.wf, Bool.and_eq_true, beq_iff_eq] at h
  simpa [Encoding.mnem, List.head?_eq_getElem?] using h.2

theorem Encoding.length_opcodeMap (h : e.wf = true) : e.opcodeMap.length = 26 :=
  (Encoding.wf_perm h).length_eq

theorem Encoding.mem_opcodeMap (h : e.wf = true) (m : Mnem) : m ∈ e.opcodeMap :=
  (Encoding.wf_perm h).mem_iff.2 (by cases m <;> decide)

theorem Encoding.nodup_opcodeMap (h : e.wf = true) : e.opcodeMap.Nodup :=
  (Encoding.wf_perm h).nodup_iff.2 (by decide)

theorem Encoding.toNat_opcode (h : e.wf = true) (m : Mnem) : (e.opcode m).toNat = e.opcodeMap.idxOf m := by
  have := List.idxOf_lt_length_iff.2 (Encoding.mem_opcodeMap h m)
  rw [Encoding.length_opcodeMap h] at this
  simp [Encoding.opcode]; omega

/-- A mnemonic's opcode names it, and no other opcode does (R110). -/
theorem Encoding.mnem_eq_some (h : e.wf = true) (op : BitVec 5) (m : Mnem) : e.mnem op = some m ↔ op = e.opcode m := by
  constructor
  · intro hm
    obtain ⟨hlt, hget⟩ := List.getElem?_eq_some_iff.1 hm
    apply BitVec.eq_of_toNat_eq
    rw [Encoding.toNat_opcode h, ← hget, (Encoding.nodup_opcodeMap h).idxOf_getElem]
  · rintro rfl
    have hlt := List.idxOf_lt_length_iff.2 (Encoding.mem_opcodeMap h m)
    simp [Encoding.mnem, Encoding.toNat_opcode h, List.getElem?_eq_getElem hlt]

/-- The opcodes that name nothing are 26 to 31 (R114). -/
theorem Encoding.mnem_eq_none (h : e.wf = true) (op : BitVec 5) : e.mnem op = none ↔ 26 ≤ op.toNat := by
  simp [Encoding.mnem, Encoding.length_opcodeMap h]

end

/-! ### Each format's fields, read and written -/

section
variable {l : FieldLayout} (op : BitVec 5) (d a b : RegIdx) (k : Imm16)

theorem FieldLayout.read_putRRR (h : l.wf = true) (mk : RegIdx → RegIdx → RegIdx → Instr) :
    let w := putField l.opcode op ||| l.putRRR d a b
    getField 5 l.opcode w = op ∧ l.readRRR w mk = mk d a b ∧ w &&& l.unusedMask .RRR = 0 := by
  have := FieldLayout.wf_fields h .RRR
  simp [FieldLayout.fields] at this
  simp (disch := omega) [FieldLayout.readRRR, FieldLayout.putRRR, getField_putField, getField_putField_apart]
  and_intros <;> exact FieldLayout.putField_unused _ (by simp [FieldLayout.fields])

theorem FieldLayout.read_putRRI (h : l.wf = true) (mk : RegIdx → RegIdx → Imm16 → Instr) :
    let w := putField l.opcode op ||| l.putRRI d a k
    getField 5 l.opcode w = op ∧ l.readRRI w mk = mk d a k ∧ w &&& l.unusedMask .RRI = 0 := by
  have := FieldLayout.wf_fields h .RRI
  simp [FieldLayout.fields] at this
  simp (disch := omega) [FieldLayout.readRRI, FieldLayout.putRRI, getField_putField, getField_putField_apart]
  and_intros <;> exact FieldLayout.putField_unused _ (by simp [FieldLayout.fields])

theorem FieldLayout.read_putRR (h : l.wf = true) (mk : RegIdx → RegIdx → Instr) :
    let w := putField l.opcode op ||| l.putRR d a
    getField 5 l.opcode w = op ∧ l.readRR w mk = mk d a ∧ w &&& l.unusedMask .RR = 0 := by
  have := FieldLayout.wf_fields h .RR
  simp [FieldLayout.fields] at this
  simp (disch := omega) [FieldLayout.readRR, FieldLayout.putRR, getField_putField, getField_putField_apart]
  and_intros <;> exact FieldLayout.putField_unused _ (by simp [FieldLayout.fields])

theorem FieldLayout.read_putRI (h : l.wf = true) (mk : RegIdx → Imm16 → Instr) :
    let w := putField l.opcode op ||| l.putRI d k
    getField 5 l.opcode w = op ∧ l.readRI w mk = mk d k ∧ w &&& l.unusedMask .RI = 0 := by
  have := FieldLayout.wf_fields h .RI
  simp [FieldLayout.fields] at this
  simp (disch := omega) [FieldLayout.readRI, FieldLayout.putRI, getField_putField, getField_putField_apart]
  and_intros <;> exact FieldLayout.putField_unused _ (by simp [FieldLayout.fields])

theorem FieldLayout.read_putI (h : l.wf = true) (mk : Imm16 → Instr) :
    let w := putField l.opcode op ||| l.putI k
    getField 5 l.opcode w = op ∧ l.readI w mk = mk k ∧ w &&& l.unusedMask .I = 0 := by
  have := FieldLayout.wf_fields h .I
  simp [FieldLayout.fields] at this
  simp (disch := omega) [FieldLayout.readI, FieldLayout.putI, getField_putField, getField_putField_apart]
  and_intros <;> exact FieldLayout.putField_unused _ (by simp [FieldLayout.fields])

end

/-! ### Decode -/

@[simp] theorem FieldLayout.mnem_read (l : FieldLayout) (w : Word) (m : Mnem) : (l.read w m).mnem = m := by
  cases m <;> rfl

/-- What the decoder has found where it answers an instruction (R112). -/
theorem decode_ok_cases {e : Encoding} {w : Word} {i : Instr} (h : decode e w = .ok i) :
    e.mnem (e.opcodeField w) = some i.mnem ∧ w &&& e.layout.unusedMask i.format = 0 ∧ e.layout.read w i.mnem = i := by
  unfold decode at h
  split at h
  · cases h
  · split at h <;> cases h
    simp [*, Instr.format]

@[simp] theorem getField_zero (n lo : Nat) : getField n lo 0#32 = 0#n := by
  apply BitVec.eq_of_getLsbD_eq
  simp [getField]

/-- The NOP word (R60). -/
theorem decode_zero {e : Encoding} (h : e.wf = true) : decode e 0 = .ok (.nop 0) := by
  have hm : e.mnem (e.opcodeField 0#32) = some .NOP := by
    simp only [Encoding.opcodeField, getField_zero]; exact Encoding.mnem_zero h
  simp [decode, hm, FieldLayout.read, FieldLayout.readI]

end Sys2Proof
end

