-- ==== Sys2Proof/Laws/PerInstr.lean ====
section
/-!
SUPPORT. Facts about each instruction as syntax, one lemma per constructor of Instr.
-/

/-- In every well-formed encoding, the word of an instruction carries its opcode, which names its mnemonic, and its
format's must-be-0 bits are 0 (spec/30_encoding.md R101, R108, R110, R113). -/
def Sys2Proof.Laws.EncodeLayout.Statement (i : Sys2Proof.Instr) : Prop :=
  ∀ e : Sys2Proof.Encoding, e.wf = true →
    e.opcodeField (Sys2Proof.encode e i) = i.opcode e ∧
    e.mnem (i.opcode e) = some i.mnem ∧
    Sys2Proof.encode e i &&& e.layout.unusedMask i.format = 0

namespace Sys2Proof.Laws.EncodeLayout

/-- The lemma of an instruction's format gives its statement. -/
theorem of_format {i : Instr} {r : Encoding → Prop}
    (h : ∀ e : Encoding, e.layout.wf = true →
      getField 5 e.layout.opcode (encode e i) = i.opcode e ∧ r e ∧ encode e i &&& e.layout.unusedMask i.format = 0) :
    Statement i := fun e he =>
  have h := h e (Encoding.wf_layout he)
  ⟨h.1, (Encoding.mnem_eq_some he _ _).2 rfl, h.2.2⟩

theorem nop (imm : Imm16) : Statement (.nop imm) :=
  of_format fun _ h => FieldLayout.read_putI _ _ h .nop
theorem add (dest src1 src2 : RegIdx) : Statement (.add dest src1 src2) :=
  of_format fun _ h => FieldLayout.read_putRRR _ _ _ _ h .add
theorem sub (dest src1 src2 : RegIdx) : Statement (.sub dest src1 src2) :=
  of_format fun _ h => FieldLayout.read_putRRR _ _ _ _ h .sub
theorem mul (dest src1 src2 : RegIdx) : Statement (.mul dest src1 src2) :=
  of_format fun _ h => FieldLayout.read_putRRR _ _ _ _ h .mul
theorem div (dest src1 src2 : RegIdx) : Statement (.div dest src1 src2) :=
  of_format fun _ h => FieldLayout.read_putRRR _ _ _ _ h .div
theorem and (dest src1 src2 : RegIdx) : Statement (.and dest src1 src2) :=
  of_format fun _ h => FieldLayout.read_putRRR _ _ _ _ h .and
theorem or (dest src1 src2 : RegIdx) : Statement (.or dest src1 src2) :=
  of_format fun _ h => FieldLayout.read_putRRR _ _ _ _ h .or
theorem xor (dest src1 src2 : RegIdx) : Statement (.xor dest src1 src2) :=
  of_format fun _ h => FieldLayout.read_putRRR _ _ _ _ h .xor
theorem not (dest src1 : RegIdx) : Statement (.not dest src1) :=
  of_format fun _ h => FieldLayout.read_putRR _ _ _ h .not
theorem sll (dest src1 : RegIdx) (imm : Imm16) : Statement (.sll dest src1 imm) :=
  of_format fun _ h => FieldLayout.read_putRRI _ _ _ _ h .sll
theorem srl (dest src1 : RegIdx) (imm : Imm16) : Statement (.srl dest src1 imm) :=
  of_format fun _ h => FieldLayout.read_putRRI _ _ _ _ h .srl
theorem sra (dest src1 : RegIdx) (imm : Imm16) : Statement (.sra dest src1 imm) :=
  of_format fun _ h => FieldLayout.read_putRRI _ _ _ _ h .sra
theorem sllv (dest src1 src2 : RegIdx) : Statement (.sllv dest src1 src2) :=
  of_format fun _ h => FieldLayout.read_putRRR _ _ _ _ h .sllv
theorem addi (dest src1 : RegIdx) (imm : Imm16) : Statement (.addi dest src1 imm) :=
  of_format fun _ h => FieldLayout.read_putRRI _ _ _ _ h .addi
theorem movi (dest : RegIdx) (imm : Imm16) : Statement (.movi dest imm) :=
  of_format fun _ h => FieldLayout.read_putRI _ _ _ h .movi
theorem movr (dest src1 : RegIdx) : Statement (.movr dest src1) :=
  of_format fun _ h => FieldLayout.read_putRR _ _ _ h .movr
theorem ld (dest src1 : RegIdx) (imm : Imm16) : Statement (.ld dest src1 imm) :=
  of_format fun _ h => FieldLayout.read_putRRI _ _ _ _ h .ld
theorem st (base value : RegIdx) (imm : Imm16) : Statement (.st base value imm) :=
  of_format fun _ h => FieldLayout.read_putRRI _ _ _ _ h .st
theorem bu (imm : Imm16) : Statement (.bu imm) :=
  of_format fun _ h => FieldLayout.read_putI _ _ h .bu
theorem bl (imm : Imm16) : Statement (.bl imm) :=
  of_format fun _ h => FieldLayout.read_putI _ _ h .bl
theorem ret (imm : Imm16) : Statement (.ret imm) :=
  of_format fun _ h => FieldLayout.read_putI _ _ h .ret
theorem beq (src1 src2 : RegIdx) (imm : Imm16) : Statement (.beq src1 src2 imm) :=
  of_format fun _ h => FieldLayout.read_putRRI _ _ _ _ h .beq
theorem bne (src1 src2 : RegIdx) (imm : Imm16) : Statement (.bne src1 src2 imm) :=
  of_format fun _ h => FieldLayout.read_putRRI _ _ _ _ h .bne
theorem blt (src1 src2 : RegIdx) (imm : Imm16) : Statement (.blt src1 src2 imm) :=
  of_format fun _ h => FieldLayout.read_putRRI _ _ _ _ h .blt
theorem bgt (src1 src2 : RegIdx) (imm : Imm16) : Statement (.bgt src1 src2 imm) :=
  of_format fun _ h => FieldLayout.read_putRRI _ _ _ _ h .bgt
theorem eop (imm : Imm16) : Statement (.eop imm) :=
  of_format fun _ h => FieldLayout.read_putI _ _ h .eop

end Sys2Proof.Laws.EncodeLayout
end

