-- ==== Sys2Proof/Tests/Slice0.lean ====
section
/-!
SUPPORT. The author's own tests. Expected values are those of spec/95_test_vectors.md (E, A, L, B, PR, NP, FW, X
vectors and the worked examples W), never the model's own answers. Then one witness for each obligation that has
hypotheses: a concrete state and operands that meet all of them together.
-/

namespace Sys2Proof.Tests

open Sys2Proof.Machine

/-! ### Well-formed instructions and configurations -/

theorem test_wf_accepts : Instr.wf 8 (.add 7 0 7) = true ∧ Instr.wf 8 (.movi 7 (-1)) = true := by decide
theorem test_wf_refuses_dest : Instr.wf 8 (.movi 8 0) = false ∧ Instr.wf 8 (.not 8 0) = false
    ∧ Instr.wf 8 (.add 8 0 0) = false := by decide
theorem test_wf_refuses_src1 : Instr.wf 8 (.movr 0 8) = false ∧ Instr.wf 8 (.sub 0 8 0) = false := by decide
theorem test_wf_refuses_src2 : Instr.wf 8 (.mul 0 0 8) = false := by decide
theorem test_config_accepts_defaults : Config.wf {} = true := by decide
theorem test_config_refuses_num_gpr :
    Config.wf { numGpr := 0 } = false ∧ Config.wf { numGpr := 17 } = false := by decide
theorem test_config_refuses_reserved_reg : Config.wf { numGpr := 4, reservedReg := 4 } = false := by decide
theorem test_config_refuses_mem_words : Config.wf { memMin := 65 } = false ∧ Config.wf { memMin := 0 } = false
    ∧ Config.wf { memWords := 2 ^ 31 + 1 } = false := by decide
theorem test_config_refuses_stack_words : Config.wf { stackWords := 16 } = false := by decide
theorem test_config_refuses_max_cycles :
    Config.wf { maxCycles := 0 } = false ∧ Config.wf { maxCycles := 2 ^ 32 } = false := by decide
theorem test_config_refuses_svc_eop : Config.wf { svcEop := 0 } = false := by decide

/-- Another encoding: the fields from bit 0 up, and SUB before ADD. -/
def lowFirst : Encoding where
  layout :=
    { opcode := 0, rrrDest := 5, rrrSrc1 := 9, rrrSrc2 := 13, rriFirst := 5, rriSecond := 9, rriImm := 13, rrDest := 5
      rrSrc1 := 9, riDest := 5, riImm := 9, iImm := 5 }
  opcodeMap := [.NOP, .SUB, .ADD] ++ opcodeMapSpec.drop 3

theorem test_encoding_accepts : Encoding.spec.wf = true ∧ lowFirst.wf = true := by decide
/-- A field outside the word, and two fields that overlap, in each format. -/
theorem test_encoding_refuses_layout :
    let bad := fun l : FieldLayout => Config.wf { encoding := { Encoding.spec with layout := l } } = false
    let l := FieldLayout.spec
    bad { l with opcode := 28 } ∧ bad { l with rrrSrc2 := 16 } ∧ bad { l with rriImm := 4 }
    ∧ bad { l with rrSrc1 := 20 } ∧ bad { l with riImm := 8 } ∧ bad { l with iImm := 12 } := by decide
/-- A mnemonic missing, one twice, and NOP not numbered 0. -/
theorem test_encoding_refuses_opcode_map :
    let bad := fun m : List Mnem => Config.wf { encoding := { Encoding.spec with opcodeMap := m } } = false
    bad opcodeMapSpec.dropLast ∧ bad (opcodeMapSpec ++ [.ADD]) ∧ bad ([.NOP, .NOP] ++ opcodeMapSpec.drop 2)
    ∧ bad ([.ADD, .NOP] ++ opcodeMapSpec.drop 2) := by decide

/-! ### Decoding: the words of vectors E1 to E29, E37 -/

theorem test_decode_alu : decode .spec 0x00000000 = .ok (.nop 0) ∧ decode .spec 0x09890000 = .ok (.add 3 1 2)
    ∧ decode .spec 0x17F68000 = .ok (.sub 15 14 13) ∧ decode .spec 0x1CD58000 = .ok (.mul 9 10 11)
    ∧ decode .spec 0x233C0000 = .ok (.div 6 7 8) ∧ decode .spec 0x2E6F0000 = .ok (.and 12 13 14)
    ∧ decode .spec 0x30918000 = .ok (.or 1 2 3) ∧ decode .spec 0x3A2B0000 = .ok (.xor 4 5 6)
    ∧ decode .spec 0x43B00000 = .ok (.not 7 6) := by decide
theorem test_decode_shifts : decode .spec 0x4BC00008 = .ok (.sll 7 8 1) ∧ decode .spec 0x54D00010 = .ok (.srl 9 10 2)
    ∧ decode .spec 0x5A2800F8 = .ok (.sra 4 5 31) ∧ decode .spec 0x60918000 = .ok (.sllv 1 2 3)
    ∧ decode .spec 0x688FFFF8 = .ok (.addi 1 1 (-1)) ∧ decode .spec 0x691BFFF8 = .ok (.addi 2 3 32767) := by decide
theorem test_decode_lsu : decode .spec 0x70800280 = .ok (.movi 1 5) ∧ decode .spec 0x70FFFF80 = .ok (.movi 1 (-1))
    ∧ decode .spec 0x77C00000 = .ok (.movi 15 (-32768)) ∧ decode .spec 0x79480000 = .ok (.movr 2 9)
    ∧ decode .spec 0x82A7FFE8 = .ok (.ld 5 4 (-3)) ∧ decode .spec 0x8A100028 = .ok (.st 4 2 5) := by decide
theorem test_decode_bru : decode .spec 0x97FFF800 = .ok (.bu (-1)) ∧ decode .spec 0x98001800 = .ok (.bl 3)
    ∧ decode .spec 0xA0000000 = .ok (.ret 0) ∧ decode .spec 0xA0000800 = .ok (.ret 1)
    ∧ decode .spec 0xA8900010 = .ok (.beq 1 2 2) ∧ decode .spec 0xB087FFF0 = .ok (.bne 1 0 (-2))
    ∧ decode .spec 0xB9A7FFC0 = .ok (.blt 3 4 (-8)) ∧ decode .spec 0xC2B00320 = .ok (.bgt 5 6 100)
    ∧ decode .spec 0xC8000000 = .ok (.eop 0) := by decide

/-- E30 to E36. -/
theorem test_decode_refuses : decode .spec 0xD0000000 = .error (.illegalOpcode 0xD0000000)
    ∧ decode .spec 0xF8000000 = .error (.illegalOpcode 0xF8000000)
    ∧ decode .spec 0x00000001 = .error (.unusedBits 1)
    ∧ decode .spec 0x09890001 = .error (.unusedBits 0x09890001)
    ∧ decode .spec 0x688FFFFC = .error (.unusedBits 0x688FFFFC)
    ∧ decode .spec 0x70800281 = .error (.unusedBits 0x70800281)
    ∧ decode .spec 0x43B00001 = .error (.unusedBits 0x43B00001) := by
  decide

theorem test_encode : encode .spec (.sub 15 14 13) = 0x17F68000 ∧ encode .spec (.sra 4 5 31) = 0x5A2800F8
    ∧ encode .spec (.not 7 6) = 0x43B00000 ∧ encode .spec (.movi 15 (-32768)) = 0x77C00000
    ∧ encode .spec (.bu (-1)) = 0x97FFF800 := by
  decide

/-- R112's UNUSED_MASK values. -/
theorem test_unused_masks :
    let m := FieldLayout.spec.unusedMask
    m .RRR = 0x00007FFF ∧ m .RRI = 0x00000007 ∧ m .RR = 0x0007FFFF ∧ m .RI = 0x0000007F ∧ m .I = 0x000007FF := by decide

/-- SUB R3, R1, R2 of `lowFirst`, laid out by hand: 3 * 2^5 + 1 * 2^9 + 2 * 2^13 + 1. -/
theorem test_other_encoding : encode lowFirst (.sub 3 1 2) = 16993 ∧ decode lowFirst 16993 = .ok (.sub 3 1 2)
    ∧ decode lowFirst 0x80000002 = .error (.unusedBits 0x80000002) := by decide

/-! ### Small states -/

/-- A core with the registers `xs`, about to execute `i`, fetched at `loc` with prediction `p`. -/
def at_ (i : Instr) (loc : Word) (p : Bool) (xs : List (Nat × Word)) : State :=
  { State.reset with
    regs := xs.foldl (fun x c => writeReg x c.1 c.2) State.reset.regs
    iq := [{ instr := i, fetchLoc := loc, predTaken := p }] }

/-- One field of the next state, where there is one and it stands at no fault. -/
def field {α : Type} (r : Result) (f : State → α) : Option α :=
  match r with
  | .next t => if t.raised = none then some (f t) else none
  | _ => none

/-- The fault of the next state. -/
def faultOf (r : Result) : Option (FaultKind × FaultValue) :=
  match r with
  | .next t => t.raised.map fun f => (f.kind, f.value)
  | _ => none

/-- What Execute computes for `i` where x1 = a and x2 = b. -/
def value (i : Instr) (a b : Word) : Option Word := field (exec i (at_ i 0 false [(1, a), (2, b)])) (·.ew.wbValue)

/-- CTX after Execute has run `i`, fetched at `loc` with prediction `p`, where x1 = a and x2 = b. -/
def ctxOf (i : Instr) (loc : Word) (p : Bool) (a b : Word) : Option Context :=
  field (exec i (at_ i loc p [(1, a), (2, b)])) (·.ctx)

/-! ### The Arithmetic/Logic Unit: vectors A1 to A50 -/

theorem test_add : value (.add 3 1 2) 0x7FFFFFFF 1 = some 0x80000000 ∧ value (.add 3 1 2) (-1) 1 = some 0 := by decide
theorem test_sub : value (.sub 3 1 2) 3 5 = some (-2) ∧ value (.sub 3 1 2) 0 0x80000000 = some 0x80000000 := by decide
theorem test_mul : value (.mul 3 1 2) 65536 65536 = some 0 ∧ value (.mul 3 1 2) (-3) 7 = some (-21) := by decide
theorem test_div : value (.div 3 1 2) (-7) 2 = some (-3) ∧ value (.div 3 1 2) 7 (-2) = some (-3)
    ∧ value (.div 3 1 2) 0x80000000 (-1) = some 0x80000000 := by decide
theorem test_div_by_zero :
    faultOf (exec (.div 3 1 2) (at_ (.div 3 1 2) 9 false [(1, 5)])) = some (.arithmeticFault, .divisor 9) := by decide
theorem test_and : value (.and 3 1 2) 12 10 = some 8 := by decide
theorem test_or : value (.or 3 1 2) 12 10 = some 14 := by decide
theorem test_xor : value (.xor 3 1 2) (-1) 0x0F0F0F0F = some 0xF0F0F0F0 := by decide
theorem test_not : value (.not 3 1) 0x0000FFFF 0 = some 0xFFFF0000 := by decide
theorem test_sll : value (.sll 3 1 31) 1 0 = some 0x80000000 ∧ value (.sll 3 1 32) 1 0 = some 1 := by decide
theorem test_srl : value (.srl 3 1 2) (-16) 0 = some 0x3FFFFFFC ∧ value (.srl 3 1 32) 5 0 = some 5 := by decide
theorem test_sra : value (.sra 3 1 1) (-7) 0 = some (-4) ∧ value (.sra 3 1 (-1)) (-1) 0 = some (-1) := by decide
theorem test_sllv : value (.sllv 3 1 2) 3 33 = some 6 ∧ value (.sllv 3 1 2) 1 (-1) = some 0x80000000 := by decide
/-- D19: another SHIFT_MASK. -/
theorem test_shift_mask : field (exec (.sll 3 1 32)
    { at_ (.sll 3 1 32) 0 false [(1, 1)] with cfg := { shiftMask := 63 } }) (·.ew.wbValue) = some 0 := by decide
theorem test_addi : value (.addi 3 1 1) 2147483647 0 = some 0x80000000
    ∧ value (.addi 3 1 (-32768)) 0 0 = some 0xFFFF8000 := by decide

/-- R300: NOP commits nothing. -/
theorem test_nop : field (exec (.nop 0) (at_ (.nop 0) 0 false [])) (fun t => (writeback t).toOption) = some (some none) := by
  decide

/-! ### The Load/Store Unit: vectors L1 to L18 -/

def holding (s : State) (a : Nat) (v : Word) : State := { s with mem := s.mem.write a v }

theorem test_movi : value (.movi 15 (-32768)) 0 0 = some 0xFFFF8000 := by decide
theorem test_movr : value (.movr 2 1) 42 0 = some 42 := by decide
theorem test_ld :
    field (exec (.ld 5 4 (-3)) (holding (at_ (.ld 5 4 (-3)) 0 false [(4, 35)]) 32 (-9)))
      (fun t => (t.ew.wbValue, t.mar, t.mdr)) = some (-9, 32, 0xFFFFFFF7) := by decide
theorem test_ld_outside :
    faultOf (exec (.ld 5 4 0) (at_ (.ld 5 4 0) 0 false [(4, 64)])) = some (.memoryFault, .address 64)
    ∧ faultOf (exec (.ld 5 4 (-1)) (at_ (.ld 5 4 (-1)) 0 false [])) = some (.memoryFault, .address (-1)) := by decide
theorem test_st :
    field (exec (.st 4 2 5) (at_ (.st 4 2 5) 0 false [(4, 10), (2, -1)]))
      (fun t => (t.mem.read 15, t.mar, t.mdr)) = some (0xFFFFFFFF, 15, 0xFFFFFFFF) := by decide
theorem test_st_wraps :
    faultOf (exec (.st 4 2 1) (at_ (.st 4 2 1) 0 false [(4, 0x7FFFFFFF), (2, 1)]))
      = some (.memoryFault, .address (-2147483648)) := by decide

/-! ### The Branch Unit and EOP: vectors B1 to B15 -/

theorem test_bu : ctxOf (.bu (-1)) 1 true 0 0 = some ⟨false, 0, true⟩ ∧ ctxOf (.bu (-1)) 1 false 0 0 = some ⟨true, 0, false⟩ := by
  decide
theorem test_bl :
    field (exec (.bl 3) (at_ (.bl 3) 2 true [(1, 7)])) (fun t => (t.ctx, t.lr, t.stack.length, t.stack.head?, t.stack[15]?))
      = some (⟨false, 0, true⟩, 3, 17, some 3, some 7) := by decide
theorem test_bl_overflow :
    let s := { at_ (.bl 1) 0 true [] with cfg := { stackWords := 17 }, stack := List.replicate 17 0 }
    faultOf (exec (.bl 1) s) = some (.memoryFault, .stackOverflow) := by decide
theorem test_ret :
    let s := { at_ (.ret 0) 7 true [] with stack := [3, 115, 114, 113, 112, 111, 110, 109, 108, 107, 106, 105, 104, 103, 102, 101, 100, 77] }
    field (exec (.ret 0) s) (fun t => (t.ctx, t.lr, t.stack, readReg t.regs 15, readReg t.regs 1, readReg t.regs 0))
      = some (⟨true, 3, false⟩, 3, [77], 115, 101, 0) := by decide
theorem test_ret_underflow :
    let s := { at_ (.ret 0) 7 true [] with stack := List.replicate 16 0 }
    faultOf (exec (.ret 0) s) = some (.memoryFault, .stackUnderflow) := by decide
theorem test_beq : ctxOf (.beq 1 2 2) 2 false 1 1 = some ⟨true, 4, false⟩
    ∧ ctxOf (.beq 1 2 2) 2 false 1 2 = some ⟨false, 0, true⟩ := by decide
theorem test_bne : ctxOf (.bne 1 0 (-2)) 4 true 3 0 = some ⟨false, 0, true⟩
    ∧ ctxOf (.bne 1 0 (-2)) 4 true 0 0 = some ⟨true, 5, false⟩ := by decide
theorem test_blt : ctxOf (.blt 1 2 (-8)) 20 true 2 (-5) = some ⟨true, 21, false⟩
    ∧ ctxOf (.blt 1 2 1) 0 false 0x7FFFFFFF 0x80000000 = some ⟨false, 0, true⟩ := by decide
theorem test_bgt : ctxOf (.bgt 1 2 100) 7 false 9 9 = some ⟨false, 0, true⟩
    ∧ ctxOf (.bgt 1 2 100) 7 false 0 (-1) = some ⟨true, 107, false⟩ := by decide
theorem test_eop : field (exec (.eop 0) (at_ (.eop 0) 3 false [])) (fun t => (t.ctx, t.svc)) = some (⟨false, 0, true⟩, 1) := by
  decide

/-! ### The stages: vectors PR, NP, FW, W6, A51, X -/

theorem test_predict : predict .BU (-1) = true ∧ predict .RET 0 = true ∧ predict .BNE (-32768) = true
    ∧ predict .BLT 0 = false ∧ predict .BGT 100 = false ∧ predict .ADDI (-1) = false := by decide

/-- NP2, NP3, NP4, NP5. -/
theorem test_fetch_next :
    let spc := fun (a : Word) (w : Word) => (fetch { holding State.reset a.toNat w with pc := a }).toOption.map (·.2)
    spc 2 0x98001800 = some 5 ∧ spc 7 0xA0000000 = some 8 ∧ spc 4 0xB087FFF0 = some 2 ∧ spc 2 0xA8900010 = some 3 := by
  decide

/-- P1's cycle 6 (FW1, FW2): op1 = 5 by level 1, op2 = 3 by level 2. -/
def cycle6 : State :=
  { at_ (.add 3 1 2) 2 false [(1, 5)] with ew := { instr := .movi 2 3, wbValue := 3, fetchLoc := 1, predTaken := false } }
theorem test_forwarding : field (exec (.add 3 1 2) cycle6) (·.ew.wbValue) = some 8 := by decide
theorem test_step_commits_older :
    field (step cycle6) (fun t => (readReg t.regs 2, readReg t.regs 3, t.ew.wbValue, t.cyc)) = some (3, 0, 8, 1) := by
  decide

/-- FW5: a ST in Writeback forwards nothing. -/
theorem test_store_does_not_forward :
    let s := { at_ (.add 5 4 4) 1 false [(4, 6)] with ew := { instr := .st 4 2 0, wbValue := 9, fetchLoc := 0, predTaken := false } }
    field (exec (.add 5 4 4) s) (·.ew.wbValue) = some 12 := by decide

/-- FW8, FW9: MOVI R1, 10 in Writeback, then ST R1, R1, 20. -/
theorem test_store_base :
    let s := { at_ (.st 1 1 20) 1 false [] with ew := { instr := .movi 1 10, wbValue := 10, fetchLoc := 0, predTaken := false } }
    let s' := { s with cfg := { storeBaseForward := false } }
    field (exec (.st 1 1 20) s) (·.mem.read 30) = some 10 ∧ field (exec (.st 1 1 20) s') (·.mem.read 20) = some 10 := by
  decide

/-- W6: the flush of a mispredicted BEQ. -/
def mispredicted : State := at_ (.beq 1 2 2) 2 false [(1, 1), (2, 1)]
theorem test_step_flushes :
    field (step mispredicted) (fun t => (t.ctx, t.pc, t.fd, t.di.instr, t.iq))
      = some (⟨true, 4, false⟩, 4, ⟨0, 0, false⟩, .nop 0, []) := by decide

/-- X8: MOVI R0, 1 reaches Writeback. -/
theorem test_step_reserved_register :
    faultOf (step { State.reset with ew := { instr := .movi 0 1, wbValue := 1, fetchLoc := 0, predTaken := false } })
      = some (.registerFault, .register 0) := by decide
/-- X1, X2, X7. -/
theorem test_step_fetch_faults :
    faultOf (step { State.reset with pc := -5 }) = some (.memoryFault, .address (-5))
    ∧ faultOf (step { State.reset with pc := 64 }) = some (.memoryFault, .address 64)
    ∧ faultOf (step (holding State.reset 0 0xF8000000)) = some (.registerFault, .irOpcode 0xF8000000 31 0) := by decide
/-- X12: Decode sees 0x00000001 and Execute divides by 0. -/
theorem test_step_fault_order :
    faultOf (step { at_ (.div 3 1 2) 4 false [] with fd := ⟨1, 6, false⟩ }) = some (.decodeFault, .word 1 6) := by decide
/-- The code column of the X vectors. -/
theorem test_fault_codes : FaultKind.memoryFault.code = 1 ∧ FaultKind.registerFault.code = 2
    ∧ FaultKind.decodeFault.code = 3 ∧ FaultKind.arithmeticFault.code = 4 := by decide
/-- R365: EOP's cycle halts, and no cycle runs after it. -/
theorem test_step_halts : field (step (at_ (.eop 0) 3 false [])) (·.status) = some .halted
    ∧ field (step { State.reset with status := .halted }) (·.cyc) = none := by decide
/-- X6. -/
theorem test_boot_too_long :
    (State.boot {} (List.replicate 65 0)).raised = some ⟨.memoryFault, .load, .address 64, none⟩ := by decide
/-- R73: writing what an unlisted address reads as removes the entry. -/
theorem test_memory_canonical : (Memory.write (Memory.write ⟨[(3, 7)]⟩ 1 5) 3 0).cells = [(1, 5)] := by decide

/-- Log entry 9: the word placed at reset's PC runs in the very next step. -/
theorem test_placed_word_runs :
    field (step (State.reset.withFetchWord 32 0x70800280)) (fun t => (t.ew.instr, t.ew.wbValue)) = some (.movi 1 5, 5) := by
  decide

/-! ### Witnesses: for each obligation with hypotheses, a state and operands that meet them together -/

/-! Encoding -/

theorem witness_DecodeInvertsEncode : Encoding.spec.wf = true ∧ lowFirst.wf = true := by decide
theorem witness_EncodeInvertsDecode : (Encoding.spec.wf = true ∧ decode .spec 0xC2B00320 = .ok (.bgt 5 6 100))
    ∧ lowFirst.wf = true ∧ decode lowFirst 16993 = .ok (.sub 3 1 2) := by decide
/-- A row of each list, with the largest operands. -/
theorem witness_FieldsStandAtTheirBits :
    (encode .spec (.sllv 15 15 15)).toNat = 12 * 2 ^ 27 + (15 * 2 ^ 23 + 15 * 2 ^ 19 + 15 * 2 ^ 15)
    ∧ (encode .spec (.bgt 5 6 100)).toNat = 0xC2B00320 ∧ Instr.src1 (.bgt 5 6 100) = 5 := by decide
/-- The row of NOT: a word of it and one that is none. -/
theorem witness_OpcodeMap :
    (∃ i, decode .spec 0x43B00000 = .ok i ∧ i.mnem = .NOT) ∧ 0x43B00000#32 &&& 0xF807FFFF = 0x40000000
    ∧ 0x43B00001#32 &&& 0xF807FFFF ≠ 0x40000000 :=
  ⟨⟨.not 7 6, by decide⟩, by decide⟩
/-- Opcodes 25 and 26, the last defined and the first not; a NOT with bit 0 set, which stands in no field. -/
theorem witness_IllegalWordsAreRefused :
    let op := fun w : Word => w.toNat / 2 ^ Encoding.spec.layout.opcode % 2 ^ 5
    Encoding.spec.wf = true ∧ 26 ≤ op 0xD0000000 ∧ ¬26 ≤ op 0xC8000000
    ∧ (Encoding.spec.opcode .NOT).toNat = op 0x43B00001 ∧ (0x43B00001 : Word).getLsbD 0 = true
    ∧ ∀ x ∈ Encoding.spec.layout.fields Mnem.NOT.format, 0 < x.1 ∨ x.1 + x.2 ≤ 0 := by decide

/-! Forwarding and operands. R15 is the last register of the default parameters. -/

/-- ADD R3, R1, R15 in Execute with MOVI R15 in Writeback. -/
def demo : State :=
  { at_ (.add 3 1 15) 2 false [(1, 5)] with
    ew := { instr := .movi 15 3, wbValue := 3, fetchLoc := 1, predTaken := false } }

theorem witness_OperandIsTheCommittedValue : writeback demo = .ok (some (15, 3)) ∧ (15#4).toNat < demo.cfg.numGpr
    ∧ writeback State.reset = .ok none := by decide
/-- Both values of the parameter, and a BL that pushes. -/
theorem witness_LateReadsFollowStoreBaseForward :
    (15#4).toNat < demo.cfg.numGpr ∧ demo.cfg.storeBaseForward = true
    ∧ (∃ t, exec (.bl 3) demo = .next t ∧ t.status = .running)
    ∧ ∃ s : State, (15#4).toNat < s.cfg.numGpr ∧ s.cfg.storeBaseForward = false :=
  ⟨by decide, by decide, ⟨_, rfl, by decide⟩, { demo with cfg := { storeBaseForward := false } }, by decide⟩

theorem demo_reads (r : RegIdx) : r.toNat < demo.cfg.numGpr := r.isLt

/-- The operand registers R1 and R15 exist. -/
theorem witness_AddSubMulResults : (1#4).toNat < demo.cfg.numGpr ∧ (15#4).toNat < demo.cfg.numGpr := by decide
/-- Both divisors: R2 holds 0, R15 is forwarded as 3. -/
theorem witness_DivResult : (1#4).toNat < demo.cfg.numGpr ∧ (15#4).toNat < demo.cfg.numGpr ∧ demo.operand 2 = 0
    ∧ demo.operand 15 ≠ 0 := by decide
theorem witness_BitwiseResults : (1#4).toNat < demo.cfg.numGpr ∧ (15#4).toNat < demo.cfg.numGpr := by decide
theorem witness_ShiftResults : (1#4).toNat < demo.cfg.numGpr ∧ (15#4).toNat < demo.cfg.numGpr
    ∧ demo.cfg.shiftMask = 31 := by decide
theorem witness_AddiResult : (15#4).toNat < demo.cfg.numGpr := by decide
theorem witness_MoveResults : (15#4).toNat < demo.cfg.numGpr := by decide
/-- Effective addresses 0 and 63, the first and last in range, and -1 and 64, outside it. -/
theorem witness_LoadResult :
    let s := at_ (.ld 1 2 0) 0 false [(2, 63)]
    let ea := fun k : Imm16 => s32 ((s.operand 2).toInt + k.toInt)
    let inside := fun k => 0 ≤ (ea k).toInt ∧ (ea k).toInt < s.cfg.memWords
    (2#4).toNat < s.cfg.numGpr ∧ inside 0 ∧ inside (-63) ∧ ¬inside 1 ∧ ¬inside (-64) := by decide
theorem witness_StoreResult :
    let s := at_ (.st 2 1 0) 0 false [(2, 63)]
    let base := if s.cfg.storeBaseForward then s.operand 2 else readReg s.regs (2#4).toNat
    let ea := fun k : Imm16 => s32 (base.toInt + k.toInt)
    let inside := fun k => 0 ≤ (ea k).toInt ∧ (ea k).toInt < s.cfg.memWords
    s.mem.wf ∧ (2#4).toNat < s.cfg.numGpr ∧ (1#4).toNat < s.cfg.numGpr ∧ inside 0 ∧ inside (-63) ∧ ¬inside 1
      ∧ ¬inside (-64) := by decide

/-! Branches and the call stack -/

/-- A frame that just fits, and one that just does not. -/
theorem witness_BranchLinkResult :
    (∃ s : State, s.stack.length + s.cfg.numGpr + 1 ≤ s.cfg.stackWords ∧ s.cfg.stackWords = 17) ∧
    ∃ s : State, s.cfg.stackWords < s.stack.length + s.cfg.numGpr + 1 ∧ s.cfg.stackWords = 17 :=
  ⟨⟨{ State.reset with cfg := { stackWords := 17 } }, by decide⟩,
   ⟨{ State.reset with cfg := { stackWords := 17 }, stack := [0] }, by decide⟩⟩
/-- Exactly one frame on the stack, and one word less. -/
theorem witness_ReturnResult :
    let s := { State.reset with stack := 3 :: List.replicate 16 0 }
    let s' := { State.reset with stack := List.replicate 16 0 }
    s.cfg.numGpr ≤ 16 ∧ s.stack.head? = some 3 ∧ s.cfg.numGpr + 1 ≤ s.stack.length ∧ s'.cfg.numGpr ≤ 16
      ∧ s'.stack.length < s'.cfg.numGpr + 1 := by decide
theorem witness_ConditionalBranchResults :
    let x := (demo.operand 1).toInt
    let y := (demo.operand 15).toInt
    (1#4).toNat < demo.cfg.numGpr ∧ (15#4).toNat < demo.cfg.numGpr ∧
    (Instr.bgt 1 15 (-8), 24#5, true) ∈ [(Instr.beq 1 15 (-8), 21#5, decide (x = y)),
      (.bne 1 15 (-8), 22#5, decide (x ≠ y)), (.blt 1 15 (-8), 23#5, decide (x < y)),
      (.bgt 1 15 (-8), 24#5, decide (x > y))] := by decide
theorem witness_ReturnUndoesCall : ∃ t : State, exec (.bl 3) demo = .next t
    ∧ demo.stack.length + demo.cfg.numGpr + 1 ≤ demo.cfg.stackWords ∧ demo.cfg.numGpr ≤ 16
    ∧ t.cfg = demo.cfg :=
  ⟨_, rfl, by decide, by decide, rfl⟩
/-- 15 frames of 17 words fill the 256 words as far as they go: a call at depth 14 fits, one at depth 15 does not. -/
theorem witness_CallDepthLimit :
    let s := { State.reset with stack := List.replicate (14 * 17) 0 }
    let s' := { State.reset with stack := List.replicate (15 * 17) 0 }
    s.stack.length = 14 * (s.cfg.numGpr + 1) ∧ s.status = .running ∧ 14 < s.cfg.stackWords / (s.cfg.numGpr + 1)
      ∧ s'.stack.length = 15 * (s'.cfg.numGpr + 1) ∧ s'.status = .running
      ∧ ¬15 < s'.cfg.stackWords / (s'.cfg.numGpr + 1) :=
  ⟨List.length_replicate, rfl, by decide, List.length_replicate, rfl, by decide⟩

/-! Execute as a whole -/

/-- A core of 8 registers: R7 exists, R8 does not. -/
def small : State := { State.reset with cfg := { numGpr := 8 } }

theorem witness_MissingRegisterFaults :
    (issueReads (.not 1 8) ≠ .none ∧ small.cfg.numGpr ≤ (Instr.not 1 8).src1.toNat) ∧
    (issueReads (.beq 7 8 0) = .both ∧ (Instr.beq 7 8 0).src1.toNat < small.cfg.numGpr
      ∧ small.cfg.numGpr ≤ (Instr.beq 7 8 0).src2.toNat) ∧
    ((Instr.st 8 7 0).mnem = .ST ∧ (Instr.st 8 7 0).src1.toNat < small.cfg.numGpr
      ∧ small.cfg.numGpr ≤ (Instr.st 8 7 0).dest.toNat) := by decide
theorem witness_ContextLifetime :
    (∃ t, demo.status = .running ∧ exec (.add 3 1 15) demo = .next t ∧ t.status = .running
      ∧ (Instr.add 3 1 15).unit ≠ .BRU) ∧
    ∃ t, demo.status = .running ∧ exec (.beq 2 4 5) demo = .next t ∧ t.status = .running
      ∧ (Instr.beq 2 4 5).unit = .BRU :=
  ⟨⟨_, rfl, rfl, by decide, by decide⟩, ⟨_, rfl, rfl, by decide, by decide⟩⟩

/-! The stages -/

/-- PCs -1 and 64 out of range; 63, the last in range, with a word of opcode 26 and with one of opcode 25. -/
theorem witness_FetchStage :
    let inRange := fun s : State => s.cfg.wf = true ∧ 0 ≤ s.pc.toInt ∧ s.pc.toInt < s.cfg.memWords
    let op := fun s : State =>
      (BitVec.ofNat 5 ((s.mem.read s.pc.toNat).toNat / 2 ^ s.cfg.encoding.layout.opcode)).toNat
    let last := fun w => { holding State.reset 63 w with pc := 63 }
    ¬inRange { State.reset with pc := -1 } ∧ ¬inRange { State.reset with pc := 64 } ∧ State.reset.cfg.wf = true
    ∧ (inRange (last 0xD0000000) ∧ 26 ≤ op (last 0xD0000000))
    ∧ (inRange (last 0xC8000000) ∧ op (last 0xC8000000) < 26) := by decide
theorem witness_DecodeStageRule :
    (∃ s : State, decode s.cfg.encoding s.fd.word = .ok (.ret 1)) ∧
    ∃ s : State, ∀ i, decode s.cfg.encoding s.fd.word ≠ .ok i :=
  ⟨⟨{ State.reset with fd := ⟨0xA0000800, 0, true⟩ }, by decide⟩,
   ⟨{ State.reset with fd := ⟨1, 0, false⟩ }, fun i h => by
      have : decode .spec (1 : Word) = .error (.unusedBits 1) := by decide
      cases this.symm.trans h⟩⟩
/-- One instruction of each of the three kinds, with the last register that exists and the first that does not. -/
theorem witness_IssueCaptures :
    let s := fun i : Instr => { small with di := { instr := i, fetchLoc := 0, predTaken := false } }
    let has := fun (i : Instr) (r : RegIdx) => r.toNat < (s i).cfg.numGpr
    ((Instr.beq 1 7 2).mnem = .BEQ ∧ has (.beq 1 7 2) 1 ∧ has (.beq 1 7 2) 7)
    ∧ ((Instr.sub 1 2 7).format = .RRR ∧ has (.sub 1 2 7) 2 ∧ has (.sub 1 2 7) 7)
    ∧ ((Instr.st 1 7 0).format = .RRI ∧ (Instr.st 1 7 0).mnem ≠ .BEQ ∧ (Instr.st 1 7 0).mnem ≠ .BNE
        ∧ (Instr.st 1 7 0).mnem ≠ .BLT ∧ (Instr.st 1 7 0).mnem ≠ .BGT ∧ has (.st 1 7 0) (Instr.st 1 7 0).src1)
    ∧ ((Instr.movi 7 2).format = .RI)
    ∧ ((Instr.not 1 8).format = .RR ∧ ¬has (.not 1 8) (Instr.not 1 8).src1)
    ∧ ((Instr.beq 7 8 2).mnem = .BEQ ∧ has (.beq 7 8 2) (Instr.beq 7 8 2).src1
        ∧ ¬has (.beq 7 8 2) (Instr.beq 7 8 2).src2) := by decide
/-- R34, R322 (c): Issue faults on a source register that does not exist. -/
theorem test_issue_faults :
    (issue { small with di := { instr := .not 1 8, fetchLoc := 5, predTaken := false } })
      = .error ⟨.registerFault, .issue, .register 8, some 5⟩ := by decide
theorem witness_WritebackRule :
    (demo.ew.instr.unit ≠ .BRU ∧ demo.ew.instr.mnem ≠ .NOP ∧ demo.ew.instr.mnem ≠ .ST) ∧
    ¬(State.reset.ew.instr.unit ≠ .BRU ∧ State.reset.ew.instr.mnem ≠ .NOP ∧ State.reset.ew.instr.mnem ≠ .ST) := by
  decide

/-! The cycle -/

theorem witness_StepExecutesTheQueueHead :
    (demo.status = .running ∧ demo.iq = [{ instr := .add 3 1 15, fetchLoc := 2, predTaken := false }]) ∧
    (State.reset.status = .running ∧ State.reset.iq = []) := by decide
theorem witness_FetchedWordExecutesThreeCyclesLater :
    let s := holding State.reset 0 0x70800280
    s.cfg.isReadyStub = true ∧ decode s.cfg.encoding (s.mem.read s.pc.toNat) = .ok (.movi 1 5) ∧
    ∃ u1 u2 u3, step s = .next u1 ∧ step u1 = .next u2 ∧ step u2 = .next u3 ∧ u3.status = .running
      ∧ u1.ctx.branchTaken = false ∧ u2.ctx.branchTaken = false ∧ u3.ctx.branchTaken = false :=
  ⟨by decide, by decide, _, _, _, rfl, rfl, rfl, by decide, by decide, by decide, by decide⟩
theorem witness_PlacedWordRunsNext :
    State.reset.status = .running
    ∧ decode State.reset.cfg.encoding (tableWord 32 0x98001800) = .ok (.bl 3) := by decide
theorem witness_LatchesAdvance : ∃ u, step demo = .next u ∧ u.NotFaulted ∧ u.ctx.branchTaken = false
    ∧ demo.isReady = true :=
  ⟨_, rfl, by unfold State.NotFaulted; decide, by decide, by decide⟩
theorem witness_RedirectFlushes :
    (∃ u, step mispredicted = .next u ∧ u.NotFaulted ∧ u.ctx.branchTaken = true) ∧
    ∃ u, step demo = .next u ∧ u.NotFaulted ∧ u.ctx.branchTaken = false :=
  ⟨⟨_, rfl, by unfold State.NotFaulted; decide, by decide⟩, ⟨_, rfl, by unfold State.NotFaulted; decide, by decide⟩⟩
/-- Whatever the uninterpreted check answers; with and without a redirect. -/
theorem witness_DependencyCheckHoldsTheFrontEnd :
    (∃ s t : State, s.status = .running ∧ s.cfg.isReadyStub = false ∧ exec s.executing.instr s = .next t
      ∧ t.status = .running ∧ (∃ wb, writeback s = .ok wb) ∧ t.ctx.branchTaken = false) ∧
    ∃ s t : State, s.status = .running ∧ s.cfg.isReadyStub = false ∧ exec s.executing.instr s = .next t
      ∧ t.status = .running ∧ (∃ wb, writeback s = .ok wb) ∧ t.ctx.branchTaken = true :=
  ⟨⟨{ demo with cfg := { isReadyStub := false } }, _, rfl, rfl, rfl, by decide, ⟨some (15, 3), by decide⟩, by decide⟩,
   ⟨{ mispredicted with cfg := { isReadyStub := false } }, _, rfl, rfl, rfl, by decide, ⟨none, by decide⟩, by decide⟩⟩
theorem witness_FaultVoidsTheCycle :
    ∃ u, step { State.reset with pc := -5 } = .next u
      ∧ u.status = .faulted ⟨.memoryFault, .fetch, .address (-5), none⟩ :=
  ⟨_, rfl, by decide⟩
theorem witness_FirstStageFaultIsReported :
    let s := { at_ (.div 3 1 2) 4 false [] with fd := ⟨1, 6, false⟩ }
    ∃ t u, s.status = .running ∧ exec s.executing.instr s = .next t ∧ step s = .next u :=
  ⟨_, _, by decide, rfl, rfl⟩
/-- The last address in range with a word of opcode 26, and one of opcode 25 with 0x00000001 in FD. -/
theorem witness_IllegalWordsStopTheCore :
    let s := { holding State.reset 63 0xD0000000 with pc := 63 }
    let s' := { holding State.reset 63 0xC8000000 with pc := 63, fd := ⟨1, 62, false⟩ }
    let op := fun w : Word => (BitVec.ofNat 5 (w.toNat / 2 ^ 27)).toNat
    (s.cfg.wf = true ∧ s.cfg.encoding.layout.opcode = 27 ∧ s.status = .running ∧ s.isReady = true
      ∧ 0 ≤ s.pc.toInt ∧ s.pc.toInt < s.cfg.memWords
      ∧ 26 ≤ op (s.mem.read s.pc.toNat)) ∧
    (s'.cfg.wf = true ∧ s'.cfg.encoding.layout.opcode = 27 ∧ s'.status = .running ∧ s'.isReady = true
      ∧ 0 ≤ s'.pc.toInt ∧ s'.pc.toInt < s'.cfg.memWords
      ∧ op (s'.mem.read s'.pc.toNat) < 26 ∧ decode s'.cfg.encoding s'.fd.word = .error (.unusedBits s'.fd.word)) := by decide
/-- EOP; the cycle that reaches MAX_CYCLES; the one before it. -/
theorem witness_EndOfCycleChecks :
    (∃ u, step (at_ (.eop 0) 3 false []) = .next u ∧ u.NotFaulted ∧ u.svc = u.cfg.svcEop) ∧
    (∃ u, step { State.reset with cyc := 999 } = .next u ∧ u.NotFaulted ∧ u.svc ≠ u.cfg.svcEop
      ∧ u.cfg.maxCycles ≤ u.cyc.toNat) ∧
    ∃ u, step { State.reset with cyc := 998 } = .next u ∧ u.NotFaulted ∧ u.svc ≠ u.cfg.svcEop
      ∧ u.cyc.toNat < u.cfg.maxCycles :=
  ⟨⟨_, rfl, by unfold State.NotFaulted; decide, by decide⟩, ⟨_, rfl, by unfold State.NotFaulted; decide, by decide⟩,
   ⟨_, rfl, by unfold State.NotFaulted; decide, by decide⟩⟩
theorem witness_EopHaltsAfterTheOlderCommit :
    let s := { demo with iq := [{ instr := .eop 0, fetchLoc := 2, predTaken := false }] }
    ∃ u, s.executing.instr = .eop 0 ∧ step s = .next u ∧ u.NotFaulted ∧ s.ew.instr.wbWrites = true ∧ s.isReady = true :=
  ⟨_, by decide, rfl, by unfold State.NotFaulted; decide, by decide, by decide⟩

/-! Who writes what -/

theorem witness_RegistersAfterACycle :
    ∃ u, demo.cfg.numGpr ≤ 16 ∧ demo.cfg.reservedReg < demo.cfg.numGpr ∧ step demo = .next u ∧ u.NotFaulted :=
  ⟨_, by decide, by decide, rfl, by unfold State.NotFaulted; decide⟩
theorem witness_OnlyStoreWritesMemory :
    let s := at_ (.st 2 1 0) 0 false [(1, 7), (2, 63)]
    ∃ u, s.mem.wf ∧ step s = .next u ∧ u.mem.read 63 ≠ s.mem.read 63 :=
  ⟨_, by decide, rfl, by decide⟩
theorem witness_OnlyCallAndReturnTouchTheStack :
    ∃ u, step (at_ (.bl 3) 2 true [(1, 7)]) = .next u ∧ u.stack.length = 17 :=
  ⟨_, rfl, by decide⟩
theorem witness_SpecialRegisterWriters : ∃ u, step (at_ (.bl 3) 2 true []) = .next u ∧ u.lr = 3 :=
  ⟨_, rfl, by decide⟩

/-! Image load -/

theorem witness_ResetValues :
    (List.replicate 2 (0x70800280 : Word)).length ≤ (Config.memWords { memWords := 2 }) := by decide
/-- An image that just fits, and one that just does not. -/
theorem witness_ImageLoad :
    (List.replicate 2 (0x70800280 : Word)).length ≤ (Config.memWords { memWords := 2 }) ∧
    (Config.memWords { memWords := 2 }) < (List.replicate 3 (0x70800280 : Word)).length := by decide

/-! The invariant and program order -/

/-- A running core that meets the invariant: MOVI R15, 3 in Writeback, BL 3 in Execute, memory and stack in use. -/
def calling : State :=
  { State.reset with
    regs := writeReg State.reset.regs 1 5
    iq := [{ instr := .bl 3, fetchLoc := 2, predTaken := true }]
    ew := { instr := .movi 15 3, wbValue := 3, fetchLoc := 1, predTaken := false }
    mem := Memory.write ⟨[]⟩ 63 7
    stack := List.replicate 17 9
    pc := 6, spc := 6, cyc := 4 }

theorem calling_inv : Inv calling where
  cfg := by decide
  reservedZero := by decide
  memForm := by decide
  memBound := by decide
  stackBound := by decide
  stackFrames := by decide
  queueOne := by decide
  queueReady := by simp [calling, Record.Predicted, Instr.mnem, predict]
  srZero := by decide
  irLegal := ⟨.NOP, by decide⟩
  diFresh := by decide
  diPredicted := by unfold Record.Predicted; decide
  ewPredicted := by unfold Record.Predicted; decide
  ctxTaken := by decide
  ctxCorrect := by decide
  svcValue := by decide
  running := by decide
  halted := by decide

theorem witness_ResetMeetsTheInvariant :
    Config.wf { memWords := 2 } = true ∧ Inv calling := ⟨by decide, calling_inv⟩
theorem witness_StepKeepsTheInvariant : ∃ u, Inv calling ∧ step calling = .next u ∧ u.NotFaulted :=
  ⟨_, calling_inv, rfl, by unfold State.NotFaulted; decide⟩
theorem witness_PredictedJumpsNeverRedirect :
    ∃ u, Inv calling ∧ step calling = .next u ∧ u.NotFaulted ∧ calling.executing.instr.mnem = .BL :=
  ⟨_, calling_inv, rfl, by unfold State.NotFaulted; decide, by decide⟩

theorem witness_RedirectCostsThreeBubbles :
    ∃ u0 u1 u2 u3, mispredicted.cfg.wf = true ∧ mispredicted.cfg.isReadyStub = true ∧ step mispredicted = .next u0
      ∧ u0.ctx.branchTaken = true ∧ step u0 = .next u1 ∧ step u1 = .next u2 ∧ step u2 = .next u3 ∧ u3.NotFaulted :=
  ⟨_, _, _, _, by decide, by decide, rfl, by decide, rfl, rfl, rfl, by unfold State.NotFaulted; decide⟩

/-- A core on the path of its program, which is `w` at address 0 and NOPs after it: `w` is in Execute. -/
def onPath (i : Instr) (w : Word) : State :=
  { holding State.reset 0 w with
    iq := [{ instr := i, fetchLoc := 0, predTaken := predict i.mnem i.imm }]
    di := { instr := .nop 0, fetchLoc := 1, predTaken := false }
    fd := ⟨0, 2, false⟩, pc := 3, spc := 3, cyc := 3 }

theorem nop_held (m : Memory) (loc : Word) (h : Config.inRange {} loc = true) (h0 : m.read loc.toNat = 0) :
    let c : Config := {}
    Record.Holds c m loc { instr := .nop 0, fetchLoc := loc, predTaken := false }
    ∧ FetchLatch.Holds c m loc ⟨0, loc, false⟩ := by
  have decodes : decode .spec 0 = .ok (.nop 0) := by decide
  have opcode : Encoding.spec.mnem (Encoding.spec.opcodeField 0) = some .NOP := by decide
  exact ⟨⟨h, by rw [h0]; exact decodes, rfl, rfl⟩, ⟨h, h0.symm, rfl, .NOP, opcode, rfl⟩⟩

theorem no_store (s : State) (h : s.storeAddress = none) : s.NoStoreAhead := fun ea he => by
  rw [h] at he; cases he

/-- No bubble ahead, with the redirect of BEQ R0, R0, 2, and with the store of ST R0, R0, 5. -/
theorem witness_CycleTracksProgramOrder :
    (∃ s u a, s = onPath (.beq 0 0 2) 0xA8000010 ∧ s.cfg.wf = true ∧ s.cfg.InOrder ∧ s.mem.wf ∧ s.svc ≠ s.cfg.svcEop
      ∧ s.NoStoreAhead ∧ Tracks s 0 a ∧ step s = .next u ∧ u.NotFaulted ∧ writeback u = .ok none
      ∧ u.ctx.branchTaken = true) ∧
    (∃ s u a, s = onPath (.st 0 0 5) 0x88000028 ∧ s.cfg.wf = true ∧ s.cfg.InOrder ∧ s.mem.wf ∧ s.svc ≠ s.cfg.svcEop
      ∧ s.NoStoreAhead ∧ Tracks s 0 a ∧ step s = .next u ∧ u.NotFaulted ∧ writeback u = .ok none
      ∧ u.ctx.branchTaken = false) :=
  ⟨⟨_, _, (onPath (.beq 0 0 2) 0xA8000010).arch 0, rfl, by decide, ⟨rfl, rfl⟩, by decide, by decide, no_store _ rfl,
      ⟨rfl, ⟨by decide, by decide, rfl, rfl⟩, (nop_held _ _ (by decide) (by decide)).1,
        (nop_held _ _ (by decide) (by decide)).2, by decide⟩,
      rfl, by unfold State.NotFaulted; decide, by decide, by decide⟩,
   ⟨_, _, (onPath (.st 0 0 5) 0x88000028).arch 0, rfl, by decide, ⟨rfl, rfl⟩, by decide, by decide,
      fun ea he => by
        have : (onPath (.st 0 0 5) 0x88000028).storeAddress = some 5 := by decide
        rw [this] at he; cases he; decide,
      ⟨rfl, ⟨by decide, by decide, rfl, rfl⟩, (nop_held _ _ (by decide) (by decide)).1,
        (nop_held _ _ (by decide) (by decide)).2, by decide⟩,
      rfl, by unfold State.NotFaulted; decide, by decide, by decide⟩⟩
/-- Three bubbles ahead: the core right after reset. -/
theorem witness_CycleTracksProgramOrder_bubbles :
    ∃ s u a, s = State.reset ∧ s.cfg.wf = true ∧ s.cfg.InOrder ∧ s.mem.wf ∧ s.svc ≠ s.cfg.svcEop ∧ s.NoStoreAhead
      ∧ Tracks s 3 a ∧ step s = .next u ∧ u.NotFaulted ∧ writeback u = .ok none :=
  ⟨_, _, State.reset.arch 0, rfl, by decide, ⟨rfl, rfl⟩, by decide, by decide, no_store _ rfl,
    ⟨rfl, rfl, rfl, rfl, rfl⟩, rfl, by unfold State.NotFaulted; decide, by decide⟩

/-- The program that is one EOP: it halts in its fourth cycle. -/
theorem witness_HaltedRunMatchesProgramOrder :
    ∃ t : State, Config.wf {} = true ∧ Config.InOrder {} ∧ [(0xC8000000 : Word)].length ≤ Config.memWords {} ∧
    (∀ k < 4, ∀ u, Host.Core.run core k (State.boot {} [0xC8000000]) = .next u → State.NoStoreAhead u) ∧
    Host.Core.run core 4 (State.boot {} [0xC8000000]) = .next t ∧ t.status = .halted :=
  ⟨_, by decide, ⟨rfl, rfl⟩, by decide, fun k hk u hu => by
      match k, hk with
      | 0, _ | 1, _ | 2, _ | 3, _ => cases hu; exact no_store _ rfl
    , rfl, by decide⟩
/-- The same run. -/
theorem witness_HaltedRunCycleCount :
    ∃ t : State, Host.Core.run core 4 (State.boot {} [0xC8000000]) = .next t ∧ t.status = .halted
      ∧ Config.wf {} = true ∧ Config.InOrder {} ∧
      ∀ k < 4, ∀ u, Host.Core.run core k (State.boot {} [0xC8000000]) = .next u → State.NoStoreAhead u := by
  obtain ⟨t, h1, h2, -, h4, h5, h6⟩ := witness_HaltedRunMatchesProgramOrder
  exact ⟨t, h5, h6, h1, h2, h4⟩

end Sys2Proof.Tests
end

section
/-!
What Execute can do, said once: `Completes` has one constructor per shape in which an instruction leaves Execute
without a fault, and `exec_cases` is the inversion of `exec` by it.
-/

namespace Sys2Proof

/-- The instructions that only compute a value for Writeback: the ALU's, MOVI and MOVR (R111). -/
def Mnem.isComputation (m : Mnem) : Bool := m.unit != .BRU && m != .LD && m != .ST

theorem Mnem.isComputation_iff (m : Mnem) : m.isComputation = true ↔ m.unit ≠ .BRU ∧ m ≠ .LD ∧ m ≠ .ST := by
  simp [Mnem.isComputation, and_assoc]

/-- The conditional branches are the Branch Unit's (R111). -/
theorem Mnem.unit_of_isCondBranch {m : Mnem} : m.isCondBranch = true → m.unit = .BRU := by
  cases m <;> decide

end Sys2Proof

namespace Sys2Proof.Machine

/-- `Completes s i t`: executed from `s`, the instruction `i` leaves `t` without a fault (R154, R160, R174). -/
inductive Completes (s : State) : Instr → State → Prop
  /-- An ALU instruction, MOVI or MOVR: a value for Writeback. -/
  | computed {i : Instr} (v : Word) (comp : i.mnem.isComputation = true) : Completes s i (s.retire i v)
  /-- R244 -/
  | loaded {d b : RegIdx} {imm : Imm16} {ea : Word} (address : ea = effectiveAddress (s.operand b) imm)
    (inRange : s.cfg.inRange ea = true) :
    Completes s (.ld d b imm)
      { s.retire (.ld d b imm) (s.mem.read ea.toNat) with mar := ea, mdr := s.mem.read ea.toNat }
  /-- R245 -/
  | stored {b v : RegIdx} {imm : Imm16} {ea : Word} (address : ea = effectiveAddress (s.lateOperand b) imm)
    (inRange : s.cfg.inRange ea = true) :
    Completes s (.st b v imm)
      { s.retire (.st b v imm) s.executing.wbValue with
        mar := ea, mdr := s.operand v, mem := s.mem.write ea.toNat (s.operand v) }
  /-- R272 -/
  | jumped (imm : Imm16) : Completes s (.bu imm) ((s.retireBranch (.bu imm)).takeUnlessPredicted s.executing imm)
  /-- R274 -/
  | called (imm : Imm16) (fits : s.stack.length + s.cfg.frameWords ≤ s.cfg.stackWords) :
    Completes s (.bl imm)
      (State.takeUnlessPredicted
        { s.retireBranch (.bl imm) with
          lr := nextLoc s.executing.fetchLoc
          stack := nextLoc s.executing.fetchLoc ::
            pushRegs (fun r => s.lateValue (BitVec.ofNat 4 r)) s.cfg.numGpr s.stack }
        s.executing imm)
  /-- R276 -/
  | returned (imm : Imm16) (holds : s.cfg.frameWords ≤ s.stack.length) :
    Completes s (.ret imm)
      (State.redirect
        { s.retireBranch (.ret imm) with
          lr := s.stack.headD 0
          regs := (popRegs s.cfg.reservedReg s.cfg.numGpr s.stack.tail s.regs).1
          stack := (popRegs s.cfg.reservedReg s.cfg.numGpr s.stack.tail s.regs).2 }
        (s.stack.headD 0))
  /-- R277, predicted as it came out. -/
  | predicted {i : Instr} (cond : i.mnem.isCondBranch = true) : Completes s i (s.retireBranch i)
  /-- R277, mispredicted. -/
  | mispredicted {i : Instr} (cond : i.mnem.isCondBranch = true) (target : Word) :
    Completes s i ((s.retireBranch i).redirect target)
  /-- R302 -/
  | ended (imm : Imm16) : Completes s (.eop imm) { s.retireBranch (.eop imm) with svc := s.cfg.svcEop }

/-! ### The inversion of Execute -/

/-- What Execute can answer for `i` from `s`: a fault taken from the start of the cycle, or a completion. -/
def FaultsOrCompletes (s : State) (i : Instr) (r : Result) : Prop :=
  (∃ f, r = .next (s.takeFault f)) ∨ ∃ t, r = .next t ∧ Completes s i t

section
variable {s : State} {i : Instr}

theorem FaultsOrCompletes.fault {f : FaultInfo} {r : Result} (h : r = .next (s.takeFault f)) :
    FaultsOrCompletes s i r := .inl ⟨f, h⟩

theorem FaultsOrCompletes.complete {t : State} {r : Result} (h : r = .next t) (ht : Completes s i t) :
    FaultsOrCompletes s i r := .inr ⟨t, h, ht⟩

/-- A register exists or is missing (R34). -/
theorem State.exists_or_missing (s : State) (r : RegIdx) : r.toNat < s.cfg.numGpr ∨ s.cfg.numGpr ≤ r.toNat :=
  Nat.lt_or_ge _ _

theorem aluRegReg_faultsOrCompletes (a b : RegIdx) (f : Word → Word → Word) (hi : i.mnem.isComputation = true) :
    FaultsOrCompletes s i (aluRegReg i a b f s) := by
  rcases s.exists_or_missing a with ha | ha
  · rcases s.exists_or_missing b with hb | hb
    · exact .complete (aluRegReg_ok i f ha hb) (.computed _ hi)
    · exact .fault (aluRegReg_missing2 i f ha hb)
  · exact .fault (aluRegReg_missing1 i f ha)

theorem aluReg_faultsOrCompletes (a : RegIdx) (f : Word → Word) (hi : i.mnem.isComputation = true) :
    FaultsOrCompletes s i (aluReg i a f s) := by
  rcases s.exists_or_missing a with ha | ha
  · exact .complete (aluReg_ok i f ha) (.computed _ hi)
  · exact .fault (aluReg_missing i f ha)

theorem condBranch_faultsOrCompletes (a b : RegIdx) (imm : Imm16) (cond : Word → Word → Bool)
    (hi : i.mnem.isCondBranch = true) : FaultsOrCompletes s i (condBranch i a b imm cond s) := by
  rcases s.exists_or_missing a with ha | ha
  · rcases s.exists_or_missing b with hb | hb
    · refine .complete (condBranch_ok i imm cond ha hb) ?_
      split
      · exact .predicted hi
      · exact .mispredicted hi _
    · exact .fault (condBranch_missing2 i imm cond ha hb)
  · exact .fault (condBranch_missing1 i imm cond ha)

end

section
variable (s : State)

/-! DIV, MOVR, LD and ST where an operand register is missing: the other shapes' laws stand in `Laws/Ops`. -/

theorem execDiv_missing1 {d a b : RegIdx} (ha : s.cfg.numGpr ≤ a.toNat) :
    execDiv d a b s =
      .next (s.takeFault ⟨.registerFault, .execute, .register a.toNat, some s.executing.fetchLoc⟩) := by
  simp [execDiv, State.op1_missing ha, bind, Except.bind]

theorem execDiv_missing2 {d a b : RegIdx} (ha : a.toNat < s.cfg.numGpr) (hb : s.cfg.numGpr ≤ b.toNat) :
    execDiv d a b s =
      .next (s.takeFault ⟨.registerFault, .execute, .register b.toNat, some s.executing.fetchLoc⟩) := by
  simp [execDiv, State.op1_ok ha, State.op2_missing hb, bind, Except.bind]

theorem execDiv_ok {d a b : RegIdx} (ha : a.toNat < s.cfg.numGpr) (hb : b.toNat < s.cfg.numGpr) :
    execDiv d a b s = .next
      (if s.operand b = 0 then
        s.takeFault ⟨.arithmeticFault, .execute, .divisor s.executing.fetchLoc, some s.executing.fetchLoc⟩
       else s.retire (.div d a b) (quotient (s.operand a) (s.operand b))) := by
  simp only [execDiv, State.op1_ok ha, State.op2_ok hb, bind, Except.bind, pure, Except.pure]
  split <;> rfl

theorem execMovr_missing {d a : RegIdx} (ha : s.cfg.numGpr ≤ a.toNat) :
    execMovr d a s =
      .next (s.takeFault ⟨.registerFault, .execute, .register a.toNat, some s.executing.fetchLoc⟩) := by
  simp [execMovr, State.op1_missing ha, bind, Except.bind]

theorem execMovr_ok {d a : RegIdx} (ha : a.toNat < s.cfg.numGpr) :
    execMovr d a s = .next (s.retire (.movr d a) (s.operand a)) := by
  simp [execMovr, State.op1_ok ha, bind, Except.bind, pure, Except.pure]

theorem execLd_missing {d b : RegIdx} {imm : Imm16} (hb : s.cfg.numGpr ≤ b.toNat) :
    execLd d b imm s =
      .next (s.takeFault ⟨.registerFault, .execute, .register b.toNat, some s.executing.fetchLoc⟩) := by
  simp [execLd, State.op1_missing hb, bind, Except.bind]

theorem execLd_ok {d b : RegIdx} {imm : Imm16} {ea : Word} (hb : b.toNat < s.cfg.numGpr)
    (he : ea = effectiveAddress (s.operand b) imm) (hr : s.cfg.inRange ea = true) :
    execLd d b imm s = .next
      { s.retire (.ld d b imm) (s.mem.read ea.toNat) with mar := ea, mdr := s.mem.read ea.toNat } := by
  subst he
  simp [execLd, State.op1_ok hb, State.memRead_ok _ _ hr, bind, Except.bind, pure, Except.pure]

theorem execLd_out {d b : RegIdx} {imm : Imm16} {ea : Word} (hb : b.toNat < s.cfg.numGpr)
    (he : ea = effectiveAddress (s.operand b) imm) (hr : s.cfg.inRange ea = false) :
    execLd d b imm s =
      .next (s.takeFault ⟨.memoryFault, .execute, .address ea.toInt, some s.executing.fetchLoc⟩) := by
  subst he
  simp [execLd, State.op1_ok hb, State.memRead_out _ _ hr, bind, Except.bind]

theorem execSt_missing1 {b v : RegIdx} {imm : Imm16} (hv : s.cfg.numGpr ≤ v.toNat) :
    execSt b v imm s =
      .next (s.takeFault ⟨.registerFault, .execute, .register v.toNat, some s.executing.fetchLoc⟩) := by
  simp [execSt, State.op1_missing hv, bind, Except.bind]

theorem execSt_missing2 {b v : RegIdx} {imm : Imm16} (hv : v.toNat < s.cfg.numGpr) (hb : s.cfg.numGpr ≤ b.toNat) :
    execSt b v imm s =
      .next (s.takeFault ⟨.registerFault, .execute, .register b.toNat, some s.executing.fetchLoc⟩) := by
  simp [execSt, State.op1_ok hv, State.storeBase_missing hb, bind, Except.bind]

theorem execSt_ok {b v : RegIdx} {imm : Imm16} {ea : Word} (hv : v.toNat < s.cfg.numGpr)
    (hb : b.toNat < s.cfg.numGpr) (he : ea = effectiveAddress (s.lateOperand b) imm)
    (hr : s.cfg.inRange ea = true) :
    execSt b v imm s = .next
      { s.retire (.st b v imm) s.executing.wbValue with
        mar := ea, mdr := s.operand v, mem := s.mem.write ea.toNat (s.operand v) } := by
  subst he
  simp [execSt, State.op1_ok hv, State.storeBase_ok hb, State.memWrite_ok _ _ _ hr, bind, Except.bind, pure,
    Except.pure]

theorem execSt_out {b v : RegIdx} {imm : Imm16} {ea : Word} (hv : v.toNat < s.cfg.numGpr)
    (hb : b.toNat < s.cfg.numGpr) (he : ea = effectiveAddress (s.lateOperand b) imm)
    (hr : s.cfg.inRange ea = false) :
    execSt b v imm s =
      .next (s.takeFault ⟨.memoryFault, .execute, .address ea.toInt, some s.executing.fetchLoc⟩) := by
  subst he
  simp [execSt, State.op1_ok hv, State.storeBase_ok hb, State.memWrite_out _ _ _ hr, bind, Except.bind]

/-! Each of the remaining meanings faults or completes. -/

theorem execDiv_faultsOrCompletes (d a b : RegIdx) : FaultsOrCompletes s (.div d a b) (execDiv d a b s) := by
  rcases s.exists_or_missing a with ha | ha
  · rcases s.exists_or_missing b with hb | hb
    · rw [execDiv_ok s ha hb]
      split
      · exact .fault rfl
      · exact .complete rfl (.computed _ rfl)
    · exact .fault (execDiv_missing2 s ha hb)
  · exact .fault (execDiv_missing1 s ha)

theorem execMovr_faultsOrCompletes (d a : RegIdx) : FaultsOrCompletes s (.movr d a) (execMovr d a s) := by
  rcases s.exists_or_missing a with ha | ha
  · exact .complete (execMovr_ok s ha) (.computed _ rfl)
  · exact .fault (execMovr_missing s ha)

theorem execLd_faultsOrCompletes (d b : RegIdx) (imm : Imm16) :
    FaultsOrCompletes s (.ld d b imm) (execLd d b imm s) := by
  rcases s.exists_or_missing b with hb | hb
  · cases hr : s.cfg.inRange (effectiveAddress (s.operand b) imm)
    · exact .fault (execLd_out s hb rfl hr)
    · exact .complete (execLd_ok s hb rfl hr) (.loaded rfl hr)
  · exact .fault (execLd_missing s hb)

theorem execSt_faultsOrCompletes (b v : RegIdx) (imm : Imm16) :
    FaultsOrCompletes s (.st b v imm) (execSt b v imm s) := by
  rcases s.exists_or_missing v with hv | hv
  · rcases s.exists_or_missing b with hb | hb
    · cases hr : s.cfg.inRange (effectiveAddress (s.lateOperand b) imm)
      · exact .fault (execSt_out s hv hb rfl hr)
      · exact .complete (execSt_ok s hv hb rfl hr) (.stored rfl hr)
    · exact .fault (execSt_missing2 s hv hb)
  · exact .fault (execSt_missing1 s hv)

theorem execBl_faultsOrCompletes (imm : Imm16) : FaultsOrCompletes s (.bl imm) (execBl imm s) := by
  unfold execBl
  split
  · exact .fault rfl
  · exact .complete rfl (.called imm (by omega))

theorem execRet_faultsOrCompletes (imm : Imm16) : FaultsOrCompletes s (.ret imm) (execRet imm s) := by
  unfold execRet
  split
  · exact .fault rfl
  · exact .complete rfl (.returned imm (by omega))

/-- Execute answers a next state for every instruction in every state: a fault taken, or a completion. -/
theorem exec_cases (i : Instr) : FaultsOrCompletes s i (exec i s) := by
  cases i with
  | nop imm => exact .complete rfl (.computed 0 rfl)
  | add d a b | sub d a b | mul d a b | and d a b | or d a b | xor d a b | sllv d a b =>
    exact aluRegReg_faultsOrCompletes _ _ _ rfl
  | not d a | sll d a imm | srl d a imm | sra d a imm | addi d a imm =>
    exact aluReg_faultsOrCompletes _ _ rfl
  | div d a b => exact execDiv_faultsOrCompletes s d a b
  | movi d imm => exact .complete rfl (.computed _ rfl)
  | movr d a => exact execMovr_faultsOrCompletes s d a
  | ld d b imm => exact execLd_faultsOrCompletes s d b imm
  | st b v imm => exact execSt_faultsOrCompletes s b v imm
  | bu imm => exact .complete rfl (.jumped imm)
  | bl imm => exact execBl_faultsOrCompletes s imm
  | ret imm => exact execRet_faultsOrCompletes s imm
  | beq a b imm | bne a b imm | blt a b imm | bgt a b imm => exact condBranch_faultsOrCompletes _ _ _ _ rfl
  | eop imm => exact .complete rfl (.ended imm)

end

end Sys2Proof.Machine
end

section
/-!
An operand register that does not exist stops Execute, for every instruction that reads it.
-/

namespace Sys2Proof.Machine

section
variable {s : State} {i : Instr}

/-- The first source is checked before anything else. -/
theorem exec_missing_src1 (hi : issueReads i ≠ .none) (h : s.cfg.numGpr ≤ i.src1.toNat) :
    s.Faults i .registerFault (.register i.src1.toNat) := by
  cases i with
  | add d a b | sub d a b | mul d a b | and d a b | or d a b | xor d a b | sllv d a b =>
    exact aluRegReg_missing1 _ _ h
  | div d a b => exact execDiv_missing1 s h
  | not d a | sll d a imm | srl d a imm | sra d a imm | addi d a imm => exact aluReg_missing _ _ h
  | movr d a => exact execMovr_missing s h
  | ld d b imm => exact execLd_missing s h
  | st b v imm => exact execSt_missing1 s h
  | beq a b imm | bne a b imm | blt a b imm | bgt a b imm => exact condBranch_missing1 _ _ _ h
  | nop imm | movi d imm | bu imm | bl imm | ret imm | eop imm => exact absurd rfl hi

/-- The second source is checked where the first exists. -/
theorem exec_missing_src2 (hi : issueReads i = .both) (h1 : i.src1.toNat < s.cfg.numGpr)
    (h2 : s.cfg.numGpr ≤ i.src2.toNat) : s.Faults i .registerFault (.register i.src2.toNat) := by
  cases i with
  | add d a b | sub d a b | mul d a b | and d a b | or d a b | xor d a b | sllv d a b =>
    exact aluRegReg_missing2 _ _ h1 h2
  | div d a b => exact execDiv_missing2 s h1 h2
  | beq a b imm | bne a b imm | blt a b imm | bgt a b imm => exact condBranch_missing2 _ _ _ h1 h2
  | not d a | sll d a imm | srl d a imm | sra d a imm | addi d a imm | movr d a | ld d b imm | st b v imm
  | nop imm | movi d imm | bu imm | bl imm | ret imm | eop imm => cases hi

/-- ST's base, its `dest`, is checked where its value register exists. -/
theorem exec_missing_base (hi : i.mnem = .ST) (h1 : i.src1.toNat < s.cfg.numGpr) (h2 : s.cfg.numGpr ≤ i.dest.toNat) :
    s.Faults i .registerFault (.register i.dest.toNat) := by
  cases i
  case st b v imm => exact execSt_missing2 s h1 h2
  all_goals cases hi

end

/-- Settles O27, source by source. -/
theorem missingRegisterFaults : Obligations.MissingRegisterFaults := fun _ _ =>
  ⟨exec_missing_src1, exec_missing_src2, exec_missing_base⟩

end Sys2Proof.Machine
end

section
/-!
What a completed instruction does to each part of the state, what a cycle does, and the statements about who writes
the registers and the special registers.
-/

namespace Sys2Proof.Machine

/-! ### What a completion does to each part of the state -/

section
variable {s t : State} {i : Instr}

/-- Execute leaves the parameters, both PCs, FD, DI, IQ, CYC and SR as they were. -/
theorem Completes.frame (h : Completes s i t) :
    t.cfg = s.cfg ∧ t.pc = s.pc ∧ t.spc = s.spc ∧ t.fd = s.fd ∧ t.di = s.di ∧ t.iq = s.iq ∧ t.cyc = s.cyc ∧
    t.sr = s.sr := by
  cases h <;> simp

theorem Completes.status_eq (h : Completes s i t) : t.status = s.status := by
  cases h <;> simp

/-- The executed record goes to EW, with the value its unit sets, if any (R174). -/
theorem Completes.ew_eq (h : Completes s i t) : ∃ v, t.ew = { s.executing with instr := i, wbValue := v } := by
  cases h <;> simp

/-- R44 -/
theorem Completes.lr_cases (h : Completes s i t) : t.lr = s.lr ∨ i.mnem = .BL ∨ i.mnem = .RET := by
  cases h <;> simp [Instr.mnem]

/-- R45, R46 -/
theorem Completes.mar_mdr_cases (h : Completes s i t) :
    (t.mar = s.mar ∧ t.mdr = s.mdr) ∨ i.mnem = .LD ∨ i.mnem = .ST := by
  cases h <;> simp [Instr.mnem]

/-- R49 -/
theorem Completes.svc_cases (h : Completes s i t) : t.svc = s.svc ∨ (i.mnem = .EOP ∧ t.svc = s.cfg.svcEop) := by
  cases h <;> simp [Instr.mnem]

/-- R82: only ST writes memory, and within its range. -/
theorem Completes.mem_cases (h : Completes s i t) :
    t.mem = s.mem ∨ ∃ b v imm, i = .st b v imm ∧
      s.cfg.inRange (effectiveAddress (s.lateOperand b) imm) = true ∧
      t.mem = s.mem.write (effectiveAddress (s.lateOperand b) imm).toNat (s.operand v) := by
  cases h
  case stored b v imm ea he hr => subst he; exact .inr ⟨b, v, imm, rfl, hr, rfl⟩
  all_goals exact .inl (by simp)

/-- What RET's loop leaves of the stack, whatever NUM_GPR. -/
theorem popRegs_stack (reserved n : Nat) (st : List Word) (x : Regs) : (popRegs reserved n st x).2 = st.drop n := by
  induction n generalizing st x with
  | zero => rfl
  | succ n ih => cases st <;> simp [popRegs, ih]

/-- R82, R275: BL pushes a whole frame that fits, RET pops one that is there, and nothing else touches the stack. -/
theorem Completes.stack_cases (h : Completes s i t) :
    t.stack = s.stack ∨
    (i.mnem = .BL ∧ t.stack.drop s.cfg.frameWords = s.stack ∧
      t.stack.length = s.stack.length + s.cfg.frameWords ∧ t.stack.length ≤ s.cfg.stackWords) ∨
    (i.mnem = .RET ∧ t.stack = s.stack.drop s.cfg.frameWords ∧
      s.stack.length = t.stack.length + s.cfg.frameWords) := by
  cases h
  case called imm fits =>
    right; left
    simp only [Config.frameWords] at fits ⊢
    refine ⟨rfl, ?_, ?_, ?_⟩ <;> simp [pushRegs_eq] <;> omega
  case returned imm holds =>
    right; right
    simp only [Config.frameWords] at holds ⊢
    refine ⟨rfl, ?_, ?_⟩ <;> simp [popRegs_stack]
    omega
  all_goals exact .inl (by simp)

/-- BU and BL leave CTX as it was, or redirect. -/
theorem State.takeUnlessPredicted_ctx_cases (s : State) (rec : Record) (imm : Imm16) :
    (s.takeUnlessPredicted rec imm).ctx = s.ctx ∨
    ∃ target, (s.takeUnlessPredicted rec imm).ctx = ⟨true, target, false⟩ := by
  rcases s.takeUnlessPredicted_cases rec imm with ⟨-, h⟩ | ⟨-, h⟩
  · exact .inl (by rw [h])
  · exact .inr ⟨_, by rw [h]; rfl⟩

/-- The unit's effect on CTX (R160, R270). -/
theorem Completes.ctx_cases (h : Completes s i t) :
    (i.unit ≠ .BRU ∧ t.ctx = { s.ctx with branchTaken := false }) ∨
    (i.unit = .BRU ∧ (t.ctx = Context.initial ∨ ∃ target, t.ctx = ⟨true, target, false⟩)) := by
  cases h
  case computed v hi => exact .inl ⟨((Mnem.isComputation_iff _).1 hi).1, rfl⟩
  case loaded => exact .inl ⟨nofun, rfl⟩
  case stored => exact .inl ⟨nofun, rfl⟩
  case jumped imm => exact .inr ⟨rfl, State.takeUnlessPredicted_ctx_cases _ _ _⟩
  case called imm fits => exact .inr ⟨rfl, State.takeUnlessPredicted_ctx_cases _ _ _⟩
  case returned => exact .inr ⟨rfl, .inr ⟨_, rfl⟩⟩
  case predicted hc => exact .inr ⟨Mnem.unit_of_isCondBranch hc, .inl rfl⟩
  case mispredicted target hc => exact .inr ⟨Mnem.unit_of_isCondBranch hc, .inr ⟨target, rfl⟩⟩
  case ended => exact .inr ⟨rfl, .inl rfl⟩

/-- Only RET's restores are general-register writes of Execute. -/
theorem executeWrites_iff (c : Config) (i : Instr) (r : RegIdx) :
    executeWrites c i r = true ↔ i.mnem = .RET ∧ r.toNat < c.numGpr ∧ r.toNat ≠ c.reservedReg := by
  simp [executeWrites, and_assoc]

/-- R33, R276: RET restores from a frame that is there; nothing else changes a general register in Execute. -/
theorem Completes.regs_cases (h : Completes s i t) :
    (i.mnem ≠ .RET ∧ t.regs = s.regs) ∨
    (i.mnem = .RET ∧ s.cfg.frameWords ≤ s.stack.length ∧
      t.regs = (popRegs s.cfg.reservedReg s.cfg.numGpr s.stack.tail s.regs).1) := by
  cases h
  case returned imm holds => exact .inr ⟨rfl, holds, rfl⟩
  case computed v hi => exact .inl ⟨fun hm => by simp [hm, Mnem.isComputation, Mnem.unit] at hi, rfl⟩
  case predicted hc => exact .inl ⟨fun hm => by simp [hm, Mnem.isCondBranch] at hc, rfl⟩
  case mispredicted target hc => exact .inl ⟨fun hm => by simp [hm, Mnem.isCondBranch] at hc, rfl⟩
  all_goals exact .inl ⟨nofun, by simp⟩

/-- The entry of register `r` in the frame on top of the stack, counted below the link (R273). -/
theorem getD_tail_frame (st : List Word) {n r : Nat} (hr : r < n) : st.tail.getD (n - 1 - r) 0 = st.getD (n - r) 0 := by
  rw [show n - r = n - 1 - r + 1 by omega]
  cases st <;> simp

/-- The general registers as Execute leaves them, one by one. -/
theorem Completes.readReg_regs (h : Completes s i t) (hn : s.cfg.numGpr ≤ 16) (r : RegIdx) :
    readReg t.regs r.toNat =
      if executeWrites s.cfg i r then s.stack.getD (s.cfg.numGpr - r.toNat) 0 else readReg s.regs r.toNat := by
  rcases h.regs_cases with ⟨hi, hregs⟩ | ⟨hi, holds, hregs⟩
  · simp [executeWrites_iff, hi, hregs]
  · have fits : s.cfg.numGpr ≤ s.stack.tail.length := by
      simp only [Config.frameWords] at holds; simp; omega
    obtain ⟨-, restored⟩ := popRegs_spec s.cfg.reservedReg s.cfg.numGpr s.stack.tail s.regs hn fits
    simp only [hregs, restored, executeWrites_iff, hi, true_and]
    split
    · rename_i hr; exact getD_tail_frame _ hr.1
    · rfl

end

/-! ### The cycle -/

section
variable {s u : State}

/-- A running core runs a cycle, and only a running one does (R66, R364). -/
theorem step_next_iff : (∃ u, step s = .next u) ↔ s.status = .running := by
  constructor
  · rintro ⟨u, h⟩
    exact (step_next_cases h).1
  · intro h
    rcases exec_cases s s.executing.instr with ⟨f, he⟩ | ⟨t, he, -⟩ <;> exact ⟨_, by simp only [step, h, he]; rfl⟩

/-- What a cycle does: a fault taken from its start, or the commit of what Execute completed. -/
theorem step_cases (h : step s = .next u) :
    (∃ f, u = s.takeFault f) ∨
    ∃ t fe wb, Completes s s.executing.instr t ∧ frontEnd s = .ok fe ∧ writeback s = .ok wb ∧
      u = commitCycle t s.executing.instr fe wb := by
  obtain ⟨-, t, he, ⟨f, hu, -⟩ | ⟨fe, wb, hf, hr, hw, hu⟩⟩ := step_next_cases h
  · exact .inl ⟨f, hu⟩
  · rcases exec_cases s s.executing.instr with ⟨f, ht⟩ | ⟨t', ht, hc⟩ <;> cases he.symm.trans ht
    · cases hr
    · exact .inr ⟨t, fe, wb, hc, hf, hw, hu⟩

/-- A cycle that did not fault committed. -/
theorem step_cases_of_notFaulted (h : step s = .next u) (hu : u.NotFaulted) :
    ∃ t fe wb, Completes s s.executing.instr t ∧ frontEnd s = .ok fe ∧ writeback s = .ok wb ∧
      u = commitCycle t s.executing.instr fe wb := by
  rcases step_cases h with ⟨f, rfl⟩ | h
  · cases hu
  · exact h

/-- A register after the commit: RET's value stays, else Writeback's write, else what Execute left (R172). -/
theorem readReg_commitRegs {wb : Option (RegIdx × Word)} (hn : s.cfg.numGpr ≤ 16) (hw : writeback s = .ok wb)
    (i : Instr) (x : Regs) (r : RegIdx) :
    readReg (commitRegs s.cfg i x wb) r.toNat =
      if executeWrites s.cfg i r then readReg x r.toNat
      else if s.ew.instr.wbWrites = true ∧ s.ew.instr.dest = r then s.ew.wbValue
      else readReg x r.toNat := by
  rcases writeback_ok_cases hw with ⟨hww, rfl⟩ | ⟨hww, -, hd, rfl⟩
  · simp [commitRegs, hww]
  · by_cases hr : s.ew.instr.dest = r
    · subst hr
      have := Nat.lt_of_lt_of_le hd hn
      cases hx : executeWrites s.cfg i s.ew.instr.dest <;> simp [commitRegs, hx, hww, this]
    · cases hx : executeWrites s.cfg i s.ew.instr.dest <;> simp [commitRegs, hx, hww, hr, BitVec.toNat_inj]

end

/-- Settles O46: RET's restores, Writeback's write and nothing else. -/
theorem registersAfterACycle : Obligations.RegistersAfterACycle := by
  intro s u r hn _ h hu
  obtain ⟨t, fe, wb, ht, -, hw, rfl⟩ := step_cases_of_notFaulted h hu
  obtain ⟨hcfg, -⟩ := ht.frame
  rw [commitCycle_regs, hcfg, readReg_commitRegs hn hw, ht.readReg_regs hn]
  simp only [← executeWrites_iff]
  split <;> rfl

/-- Settles O49: a fault changes none of them, and a completion only what its instruction writes. -/
theorem specialRegisterWriters : Obligations.SpecialRegisterWriters := by
  intro s u h
  rcases step_cases h with ⟨f, rfl⟩ | ⟨t, fe, wb, ht, -, -, rfl⟩
  · simp
  · obtain ⟨hcfg, -, -, -, -, -, -, hsr⟩ := ht.frame
    simp only [commitCycle_lr, commitCycle_mar, commitCycle_mdr, commitCycle_svc, commitCycle_sr, commitCycle_cfg]
    exact ⟨ht.lr_cases, ht.mar_mdr_cases, ht.svc_cases, hsr, hcfg⟩

/-- Settles O44: Execute answers a next state for every instruction, so a running core always does. -/
theorem onlyAStoppedCoreRunsNoCycle : Obligations.OnlyAStoppedCoreRunsNoCycle := fun _ => step_next_iff

end Sys2Proof.Machine
end

section
/-!
The invariant: what the latches of a well-formed core hold, what the front end hands on, and that every cycle keeps
`Inv`.
-/

namespace Sys2Proof.Machine

/-! ### The latches -/

/-- The part of the parameters' ranges (R5) that the registers and the encoding stand on. -/
theorem Config.wf_registers_encoding {c : Config} (h : c.wf = true) :
    c.numGpr ≤ 16 ∧ c.reservedReg < c.numGpr ∧ c.encoding.wf = true := by
  simp only [Config.wf, Bool.and_eq_true, decide_eq_true_eq] at h
  tauto

/-- An address in range lies below MEM_WORDS as a word address (R75). -/
theorem Config.toNat_lt_of_inRange {c : Config} {a : Word} (h : c.inRange a = true) : a.toNat < c.memWords := by
  obtain ⟨h0, h1⟩ := (Config.inRange_iff c a).1 h
  have := BitVec.toInt_eq_toNat_cond a
  omega

/-- The immediate of the instruction a word spells is the one its format gives the word (R107). -/
theorem imm_read (e : Encoding) (w : Word) (m : Mnem) : (e.layout.read w m).imm = e.imm m.format w := by
  cases m <;> rfl

theorem predicted_nop : Record.Predicted Record.nop := rfl

/-- A flushed FD holds the NOP word (R60, R171). -/
theorem legal_flushed {e : Encoding} (h : e.wf = true) : FetchLatch.Legal e FetchLatch.flushed := by
  refine ⟨.NOP, ?_, rfl⟩
  simp only [FetchLatch.flushed, Encoding.opcodeField]
  exact (congrArg e.mnem (getField_zero 5 e.layout.opcode)).trans (Encoding.mnem_zero h)

/-- Decode keeps the prediction: it is the one of the decoded instruction (R143). -/
theorem predicted_of_decodeStage {s : State} {d : Record} (hl : FetchLatch.Legal s.cfg.encoding s.fd)
    (h : decodeStage s = .ok d) : Record.Predicted d := by
  obtain ⟨hd, hrec⟩ := decodeStage_ok_cases h
  obtain ⟨hm, -, hread⟩ := decode_ok_cases hd
  obtain ⟨m, hm', hp⟩ := hl
  obtain rfl : d.instr.mnem = m := Option.some.inj (hm.symm.trans hm')
  rw [Record.Predicted, hrec, hp, ← imm_read, hread]

/-! ### What the front end hands on -/

section
variable {s : State} {fe : FrontEnd}

theorem Inv.predicted_executing (hI : Inv s) : Record.Predicted s.executing := by
  cases hq : s.iq with
  | nil => rw [s.executing_nil hq]; exact predicted_nop
  | cons r rest => rw [s.executing_cons r rest hq]; exact (hI.queueReady r (by simp [hq])).2

theorem Inv.frontEnd_fd (hI : Inv s) (h : frontEnd s = .ok fe) : FetchLatch.Legal s.cfg.encoding fe.fd := by
  rcases frontEnd_ok_cases h with ⟨-, f, d, q, hf, -, -, rfl⟩ | ⟨-, rfl⟩
  · obtain ⟨-, -, -, m, hm, hp, -⟩ := fetch_ok_cases hf
    exact ⟨m, hm, hp⟩
  · exact hI.irLegal

theorem Inv.frontEnd_di (hI : Inv s) (h : frontEnd s = .ok fe) :
    (fe.di.val1 = 0 ∧ fe.di.val2 = 0 ∧ fe.di.wbValue = 0) ∧ Record.Predicted fe.di := by
  rcases frontEnd_ok_cases h with ⟨-, f, d, q, -, hd, -, rfl⟩ | ⟨-, rfl⟩
  · obtain ⟨-, hrec⟩ := decodeStage_ok_cases hd
    exact ⟨by rw [hrec]; simp, predicted_of_decodeStage hI.irLegal hd⟩
  · exact ⟨hI.diFresh, hI.diPredicted⟩

theorem Inv.frontEnd_iq (hI : Inv s) (h : frontEnd s = .ok fe) :
    fe.iq.length ≤ 1 ∧ ∀ r ∈ fe.iq, r.depFlag = false ∧ Record.Predicted r := by
  rcases frontEnd_ok_cases h with ⟨-, f, d, q, -, -, hq, rfl⟩ | ⟨-, rfl⟩
  · obtain ⟨hinstr, -, hpred, hdep⟩ := issue_ok_cases hq
    have hp : Record.Predicted q := by rw [Record.Predicted, hpred, hinstr]; exact hI.diPredicted
    simp [hdep, hp]
  · simp

end

/-! ### The parts of the state a completion may change -/

section
variable {s t : State} {i : Instr}

theorem Inv.mem_of_completes (hI : Inv s) (h : Completes s i t) :
    t.mem.wf ∧ ∀ c ∈ t.mem.cells, c.1 < s.cfg.memWords := by
  rcases h.mem_cases with hm | ⟨b, v, imm, -, hr, hm⟩ <;> rw [hm]
  · exact ⟨hI.memForm, hI.memBound⟩
  · exact ⟨Memory.write_wf _ _ _ hI.memForm, Memory.write_bound _ _ _ _ hI.memBound (Config.toNat_lt_of_inRange hr)⟩

/-- Calls and returns move whole frames, and a call's fits (R275). -/
theorem Inv.stack_of_completes (hI : Inv s) (h : Completes s i t) :
    t.stack.length ≤ s.cfg.stackWords ∧ s.cfg.frameWords ∣ t.stack.length := by
  have hbound := hI.stackBound
  have hframes := hI.stackFrames
  rcases h.stack_cases with hst | ⟨-, -, hlen, hfit⟩ | ⟨-, -, hlen⟩
  · rw [hst]; exact ⟨hbound, hframes⟩
  · exact ⟨hfit, hlen ▸ Nat.dvd_add_self_right.2 hframes⟩
  · exact ⟨by omega, Nat.dvd_add_self_right.1 (hlen ▸ hframes)⟩

theorem Inv.ctx_of_completes (hI : Inv s) (h : Completes s i t) :
    (t.ctx.branchTaken = true → t.ctx.correctPrediction = false) ∧
    (t.ctx.correctPrediction = true → t.ctx.branchTarget = 0) := by
  rcases h.ctx_cases with ⟨-, hc⟩ | ⟨-, hc | ⟨target, hc⟩⟩ <;> rw [hc]
  · exact ⟨nofun, hI.ctxCorrect⟩
  · exact ⟨nofun, fun _ => rfl⟩
  · exact ⟨fun _ => rfl, nofun⟩

theorem Inv.svc_of_completes (hI : Inv s) (h : Completes s i t) : t.svc = 0 ∨ t.svc = s.cfg.svcEop := by
  rcases h.svc_cases with hv | ⟨-, hv⟩ <;> rw [hv]
  · exact hI.svcValue
  · exact .inr rfl

/-- The executed record keeps its prediction in EW. -/
theorem Inv.ew_of_completes (hI : Inv s) (h : Completes s s.executing.instr t) : Record.Predicted t.ew := by
  obtain ⟨v, hew⟩ := h.ew_eq
  rw [hew]
  exact hI.predicted_executing

/-- Neither RET nor Writeback writes the reserved register (R31, R164, R276). -/
theorem Inv.reserved_of_completes (hI : Inv s) (h : Completes s i t) {wb : Option (RegIdx × Word)}
    (hw : writeback s = .ok wb) : readReg (commitRegs s.cfg i t.regs wb) s.cfg.reservedReg = 0 := by
  obtain ⟨hn, hres, -⟩ := Config.wf_registers_encoding hI.cfg
  let r := BitVec.ofNat 4 s.cfg.reservedReg
  have hr : r.toNat = s.cfg.reservedReg := by simp [r]; omega
  have notRestored : ¬executeWrites s.cfg i r = true := by simp [executeWrites_iff, hr]
  have notCommitted : ¬(s.ew.instr.wbWrites = true ∧ s.ew.instr.dest = r) := by
    rintro ⟨hww, hd⟩
    rcases writeback_ok_cases hw with ⟨hno, -⟩ | ⟨-, hne, -, -⟩
    · simp [hno] at hww
    · exact hne (by rw [hd, hr])
  rw [← hr, readReg_commitRegs hn hw, if_neg notRestored, if_neg notCommitted, h.readReg_regs hn,
    if_neg notRestored, hr]
  exact hI.reservedZero

end

/-! ### The step -/

section
variable {s : State}

theorem Inv.takeFault (hI : Inv s) (f : FaultInfo) : Inv (s.takeFault f) :=
  { hI with running := nofun, halted := nofun }

/-- The commit of a cycle without a fault keeps the invariant. -/
theorem Inv.commitCycle {t : State} {fe : FrontEnd} {wb : Option (RegIdx × Word)} (hI : Inv s)
    (ht : Completes s s.executing.instr t) (hf : frontEnd s = .ok fe) (hw : writeback s = .ok wb) :
    Inv (commitCycle t s.executing.instr fe wb) := by
  obtain ⟨hcfg, -, -, -, -, -, -, hsr⟩ := ht.frame
  obtain ⟨-, -, hencoding⟩ := Config.wf_registers_encoding hI.cfg
  obtain ⟨memForm, memBound⟩ := hI.mem_of_completes ht
  obtain ⟨stackBound, stackFrames⟩ := hI.stack_of_completes ht
  obtain ⟨ctxTaken, ctxCorrect⟩ := hI.ctx_of_completes ht
  obtain ⟨queueOne, queueReady⟩ := hI.frontEnd_iq hf
  obtain ⟨diFresh, diPredicted⟩ := hI.frontEnd_di hf
  have reservedZero := hI.reserved_of_completes ht hw
  constructor <;> simp only [commitCycle_cfg, commitCycle_regs, commitCycle_mem, commitCycle_stack, commitCycle_iq,
    commitCycle_sr, commitCycle_fd, commitCycle_di, commitCycle_ew, commitCycle_ctx, commitCycle_svc,
    commitCycle_status, commitCycle_cyc, hcfg]
  case cfg => exact hI.cfg
  case reservedZero => exact reservedZero
  case memForm => exact memForm
  case memBound => exact memBound
  case stackBound => exact stackBound
  case stackFrames => exact stackFrames
  case queueOne => split <;> simp [queueOne]
  case queueReady => split; exacts [nofun, queueReady]
  case srZero => rw [hsr]; exact hI.srZero
  case irLegal => split; exacts [legal_flushed hencoding, hI.frontEnd_fd hf]
  case diFresh => split; exacts [⟨rfl, rfl, rfl⟩, diFresh]
  case diPredicted => split; exacts [predicted_nop, diPredicted]
  case ewPredicted => exact hI.ew_of_completes ht
  case ctxTaken => exact ctxTaken
  case ctxCorrect => exact ctxCorrect
  case svcValue => exact hI.svc_of_completes ht
  case running =>
    intro hrun
    split_ifs at hrun with hsvc hcyc
    exact ⟨hsvc, Nat.lt_of_not_le hcyc⟩
  case halted =>
    intro hhalt
    split_ifs at hhalt with hsvc
    exact hsvc

end

/-- Settles O53: a fault leaves all but STATUS, and the commit keeps every clause. -/
theorem stepKeepsTheInvariant : Obligations.StepKeepsTheInvariant := by
  intro s u hI h
  rcases step_cases h with ⟨f, rfl⟩ | ⟨t, fe, wb, ht, hf, hw, rfl⟩
  · exact hI.takeFault f
  · exact hI.commitCycle ht hf hw

end Sys2Proof.Machine
end

section
/-!
Addresses as the spec writes them, and the statement about who writes memory.
-/

namespace Sys2Proof.Machine

/-- Adding a sign-extended immediate to a word is exact addition, narrowed (R10, R107). -/
theorem add_sext16_eq_s32 (w : Word) (imm : Imm16) : w + sext16 imm = s32 (w.toInt + imm.toInt) := by
  simp [sext16, s32, BitVec.signExtend, BitVec.ofInt_add]

/-- R241 -/
theorem effectiveAddress_eq_s32 (base : Word) (imm : Imm16) :
    effectiveAddress base imm = s32 (base.toInt + imm.toInt) := add_sext16_eq_s32 base imm

/-- R82: a word that a completion changes is the one ST addresses, and holds ST's source value. -/
theorem Completes.store_of_read_ne {s t : State} {i : Instr} {a : Nat} (h : Completes s i t) (hwf : s.mem.wf)
    (hne : t.mem.read a ≠ s.mem.read a) :
    ∃ b v imm, i = .st b v imm ∧ t.mem.read a = s.operand v ∧
      a = (effectiveAddress (s.lateOperand b) imm).toNat := by
  rcases h.mem_cases with hmem | ⟨b, v, imm, hi, -, hmem⟩
  · exact absurd (by rw [hmem]) hne
  · rw [hmem, Memory.read_write _ _ _ _ hwf] at hne
    have ha : a = (effectiveAddress (s.lateOperand b) imm).toNat := by
      by_contra other
      exact hne (if_neg other)
    exact ⟨b, v, imm, hi, by rw [hmem, Memory.read_write _ _ _ _ hwf, if_pos ha], ha⟩

/-- Settles O47: a fault leaves memory, and the commit leaves it as the completion does. -/
theorem onlyStoreWritesMemory : Obligations.OnlyStoreWritesMemory := by
  intro s u a hwf h hne
  rcases step_cases h with ⟨f, rfl⟩ | ⟨t, fe, wb, ht, -, -, rfl⟩
  · exact absurd rfl hne
  · simp only [commitCycle_mem, ← effectiveAddress_eq_s32] at hne ⊢
    exact ht.store_of_read_ne hwf hne

end Sys2Proof.Machine
end

section
/-!
Decode and encode against each other: each answer of the decoder as an `↔`, the encoder read back field by field, and
a decoder that reads no two words as one instruction.
-/

namespace Sys2Proof

section
variable {e : Encoding} {w : Word} {m : Mnem}

/-! ### The three answers of the decoder (R112) -/

/-- A word is accepted where its opcode names a mnemonic and its unused bits are 0. -/
theorem decode_eq_ok (hm : e.mnem (e.opcodeField w) = some m) (hu : w &&& e.layout.unusedMask m.format = 0) :
    decode e w = .ok (e.layout.read w m) := by
  simp only [decode, hm, hu, if_pos]

/-- A word is refused for its opcode where the opcode field names no mnemonic (R114). -/
theorem decode_eq_illegalOpcode_iff : decode e w = .error (.illegalOpcode w) ↔ e.mnem (e.opcodeField w) = none := by
  unfold decode
  split
  · simp [*]
  · split <;> simp [*]

/-- Under a defined opcode a word is refused where an unused bit of its format is 1 (R108, R115). -/
theorem decode_eq_unusedBits_iff (hm : e.mnem (e.opcodeField w) = some m) :
    decode e w = .error (.unusedBits w) ↔ w &&& e.layout.unusedMask m.format ≠ 0 := by
  by_cases hu : w &&& e.layout.unusedMask m.format = 0
  · rw [decode_eq_ok hm hu]
    exact iff_of_false nofun (not_not.2 hu)
  · simp only [decode, hm, if_neg hu]
    exact iff_of_true trivial hu

/-- A word decodes to an instruction of a mnemonic where it carries its opcode and the unused bits are 0. -/
theorem decode_mnem_iff (he : e.wf = true) :
    (∃ i, decode e w = .ok i ∧ i.mnem = m) ↔
      e.opcodeField w = e.opcode m ∧ w &&& e.layout.unusedMask m.format = 0 := by
  rw [← Encoding.mnem_eq_some he]
  constructor
  · rintro ⟨i, hi, rfl⟩
    obtain ⟨hm, hu, -⟩ := decode_ok_cases hi
    exact ⟨hm, hu⟩
  · rintro ⟨hm, hu⟩
    exact ⟨_, decode_eq_ok hm hu, FieldLayout.mnem_read _ _ _⟩

end

/-! ### Decode after encode -/

/-- The word of an instruction carries its opcode, spells the instruction and has no unused bit (R113). -/
theorem fields_encode {e : Encoding} (h : e.layout.wf = true) (i : Instr) :
    e.opcodeField (encode e i) = i.opcode e ∧ e.layout.read (encode e i) i.mnem = i ∧
      encode e i &&& e.layout.unusedMask i.format = 0 := by
  cases i with
  | add d a b | sub d a b | mul d a b | div d a b | and d a b | or d a b | xor d a b | sllv d a b =>
    exact FieldLayout.read_putRRR _ d a b h _
  | sll d a k | srl d a k | sra d a k | addi d a k | ld d a k | st d a k
  | beq d a k | bne d a k | blt d a k | bgt d a k => exact FieldLayout.read_putRRI _ d a k h _
  | not d a | movr d a => exact FieldLayout.read_putRR _ d a h _
  | movi d k => exact FieldLayout.read_putRI _ d k h _
  | nop k | bu k | bl k | ret k | eop k => exact FieldLayout.read_putI _ k h _

/-- Settles O1: the encoded word meets the decoder's two conditions and reads back. -/
theorem decodeInvertsEncode : Obligations.DecodeInvertsEncode := by
  intro e i he
  obtain ⟨hop, hread, hunused⟩ := fields_encode (Encoding.wf_layout he) i
  have hm : e.mnem (e.opcodeField (encode e i)) = some i.mnem := (Encoding.mnem_eq_some he _ _).2 hop
  rw [decode_eq_ok hm hunused, hread]

/-! ### Encode after decode -/

/-- A bit of a field, through the field. -/
theorem getLsbD_of_mem_field {w : Word} {lo n k : Nat} (h1 : lo ≤ k) (h2 : k < lo + n) :
    w.getLsbD k = (getField n lo w).getLsbD (k - lo) := by
  rw [getLsbD_getField, Nat.add_sub_cancel' h1]
  simp [show k - lo < n by omega]

/-- Two words without unused bits that agree in every field of the format are equal. -/
theorem FieldLayout.eq_of_fields {l : FieldLayout} {f : Format} {v w : Word} (hv : v &&& l.unusedMask f = 0)
    (hw : w &&& l.unusedMask f = 0) (h : ∀ x ∈ l.fields f, getField x.2 x.1 v = getField x.2 x.1 w) : v = w := by
  rw [FieldLayout.and_unusedMask_eq_zero] at hv hw
  have agree : ∀ k x, x ∈ l.fields f → x.1 ≤ k → k < x.1 + x.2 → v.getLsbD k = w.getLsbD k := fun k x hx h1 h2 => by
    rw [getLsbD_of_mem_field h1 h2, getLsbD_of_mem_field h1 h2, h x hx]
  apply BitVec.eq_of_getLsbD_eq
  intro k hk
  rw [Bool.eq_iff_iff]
  constructor <;> intro hb
  · obtain ⟨x, hx, h1, h2⟩ := hv k hk hb
    rwa [← agree k x hx h1 h2]
  · obtain ⟨x, hx, h1, h2⟩ := hw k hk hb
    rwa [agree k x hx h1 h2]

/-- The instruction a word spells holds every field of its format but the opcode. -/
theorem FieldLayout.fields_eq_of_read_eq {l : FieldLayout} {v w : Word} {m : Mnem}
    (hop : getField 5 l.opcode v = getField 5 l.opcode w) (h : l.read v m = l.read w m) :
    ∀ x ∈ l.fields m.format, getField x.2 x.1 v = getField x.2 x.1 w := by
  cases m <;> injection h <;> simp [Mnem.format, FieldLayout.fields, *]

/-- No two words decode to one instruction. -/
theorem decode_inj {e : Encoding} {v w : Word} {i : Instr} (he : e.wf = true) (hv : decode e v = .ok i)
    (hw : decode e w = .ok i) : v = w := by
  obtain ⟨hmv, huv, hrv⟩ := decode_ok_cases hv
  obtain ⟨hmw, huw, hrw⟩ := decode_ok_cases hw
  rw [Encoding.mnem_eq_some he] at hmv hmw
  exact FieldLayout.eq_of_fields huv huw
    (FieldLayout.fields_eq_of_read_eq (hmv.trans hmw.symm) (hrv.trans hrw.symm))

/-- Settles O2: the word and the encoded word decode to one instruction. -/
theorem encodeInvertsDecode : Obligations.EncodeInvertsDecode := fun e _ i he h =>
  decode_inj he (decodeInvertsEncode e i he) h

/-! ### The words refused -/

/-- The opcode field as a number (R101). -/
theorem Encoding.toNat_opcodeField (e : Encoding) (w : Word) :
    (e.opcodeField w).toNat = w.toNat / 2 ^ e.layout.opcode % 2 ^ 5 := by
  simp [Encoding.opcodeField, getField, Nat.shiftRight_eq_div_pow]

/-- A word has a bit in the unused mask exactly where one of its bits stands in no field. -/
theorem FieldLayout.and_unusedMask_ne_zero (l : FieldLayout) (f : Format) (w : Word) :
    w &&& l.unusedMask f ≠ 0 ↔
      ∃ k < 32, w.getLsbD k = true ∧ ∀ x ∈ l.fields f, k < x.1 ∨ x.1 + x.2 ≤ k := by
  rw [ne_eq, FieldLayout.and_unusedMask_eq_zero]
  push Not
  refine exists_congr fun k => and_congr_right fun _ => and_congr_right fun _ => forall₂_congr fun x _ => ?_
  omega

/-- Settles O5: the decoder's two refusals, the opcode field and the unused bits spelled out. -/
theorem illegalWordsAreRefused : Obligations.IllegalWordsAreRefused := by
  intro e w he
  refine ⟨?_, fun m hop => ?_⟩
  · rw [decode_eq_illegalOpcode_iff, Encoding.mnem_eq_none he, Encoding.toNat_opcodeField]
  · rw [← Encoding.toNat_opcodeField, BitVec.toNat_inj] at hop
    rw [decode_eq_unusedBits_iff ((Encoding.mnem_eq_some he _ _).2 hop.symm), FieldLayout.and_unusedMask_ne_zero]

end Sys2Proof
end

section
/-!
The opcode map as match and mask words (R110).
-/

namespace Sys2Proof

/-- A mnemonic's `match`: the word with only the opcode set (R110). -/
def Encoding.matchWord (e : Encoding) (m : Mnem) : Word := putField e.layout.opcode (e.opcode m)

/-- A mnemonic's `mask`: the opcode bits and the must-be-0 bits of its format (R110). -/
def Encoding.maskWord (e : Encoding) (m : Mnem) : Word :=
  putField e.layout.opcode (BitVec.allOnes 5) ||| e.layout.unusedMask m.format

/-- A word under the mask of a field keeps that field and nothing else. -/
theorem and_putField_allOnes (n lo : Nat) (w : Word) :
    w &&& putField lo (BitVec.allOnes n) = putField lo (getField n lo w) := by
  apply BitVec.eq_of_getLsbD_eq
  intro k hk
  simp only [BitVec.getLsbD_and, getLsbD_putField, getLsbD_getField, BitVec.getLsbD_allOnes]
  by_cases h : lo ≤ k
  · simp [h, hk, Bool.and_comm]
  · simp [h]

/-- The opcode field contributes no unused bit to any format (R108, R112). -/
theorem FieldLayout.putField_opcode_unused (l : FieldLayout) (f : Format) (op : BitVec 5) :
    putField l.opcode op &&& l.unusedMask f = 0 :=
  FieldLayout.putField_unused op (by cases f <;> exact List.mem_cons_self)

/-- R110's sentence, in every well-formed encoding: a word is of a mnemonic exactly when it matches under the mask. -/
theorem decode_mnem_iff_mask {e : Encoding} {w : Word} {m : Mnem} (he : e.wf = true) :
    (∃ i, decode e w = .ok i ∧ i.mnem = m) ↔ w &&& e.maskWord m = e.matchWord m := by
  have fits : e.layout.opcode + 5 ≤ 32 :=
    (FieldLayout.wf_fields (Encoding.wf_layout he) m.format).1 (_, 5) (by cases m <;> exact List.mem_cons_self)
  rw [decode_mnem_iff he, Encoding.maskWord, Encoding.matchWord, BitVec.and_or_distrib_left, and_putField_allOnes]
  constructor
  · rintro ⟨hop, hu⟩
    rw [hu, ← hop]
    exact BitVec.or_zero
  · intro h
    have hu : w &&& e.layout.unusedMask m.format = 0 := by
      have := congrArg (· &&& e.layout.unusedMask m.format) h
      simpa [FieldLayout.putField_opcode_unused, BitVec.and_assoc] using this
    have hop : putField e.layout.opcode (e.opcodeField w) = putField e.layout.opcode (e.opcode m) := by
      rw [hu] at h
      exact BitVec.or_zero.symm.trans h
    refine ⟨?_, hu⟩
    have := congrArg (getField 5 e.layout.opcode) hop
    rwa [getField_putField _ fits, getField_putField _ fits] at this

/-- A row of the opcode map as the spec prints it (R110): mnemonic, opcode, type, unit, match and mask. -/
def IsOpcodeRow (row : Mnem × BitVec 5 × Format × ExecUnit × Word × Word) : Prop :=
  let (m, opcode, format, unit, matchWord, mask) := row
  Encoding.spec.opcode m = opcode ∧ m.format = format ∧ m.unit = unit ∧
    Encoding.spec.matchWord m = matchWord ∧ Encoding.spec.maskWord m = mask

/-- Settles O4: the printed rows hold by evaluation, the match and the mask by R110's sentence. -/
theorem opcodeMap : Obligations.OpcodeMap := by
  intro row hrow
  have printed : IsOpcodeRow row := by
    revert row
    unfold IsOpcodeRow
    decide
  obtain ⟨m, opcode, format, unit, matchWord, mask⟩ := row
  obtain ⟨hop, hformat, hunit, rfl, rfl⟩ := printed
  exact ⟨hop, hformat, hunit, fun w => decode_mnem_iff_mask (by decide)⟩

end Sys2Proof
end

section
/-!
The word of every format as a number, under the spec's own layout (R101 to R106, R113).
-/

namespace Sys2Proof

/-- A field inside the word, as a number. -/
theorem toNat_putField {n lo : Nat} (v : BitVec n) (fits : lo + n ≤ 32) :
    (putField lo v).toNat = v.toNat * 2 ^ lo := by
  have hv : v.toNat * 2 ^ lo < 2 ^ 32 := calc
    v.toNat * 2 ^ lo < 2 ^ n * 2 ^ lo := Nat.mul_lt_mul_of_pos_right v.isLt (Nat.two_pow_pos lo)
    _ = 2 ^ (lo + n) := by rw [← Nat.pow_add, Nat.add_comm]
    _ ≤ 2 ^ 32 := Nat.pow_le_pow_right (by decide) fits
  have hn : v.toNat < 2 ^ 32 := Nat.lt_of_le_of_lt (Nat.le_mul_of_pos_right _ (Nat.two_pow_pos lo)) hv
  rw [putField, BitVec.toNat_shiftLeft, BitVec.toNat_setWidth, Nat.mod_eq_of_lt hn, Nat.shiftLeft_eq,
    Nat.mod_eq_of_lt hv]

/-- A field above all the bits of a word adds to it as a number. -/
theorem toNat_putField_or {n lo : Nat} (v : BitVec n) {w : Word} (fits : lo + n ≤ 32) (below : w.toNat < 2 ^ lo) :
    (putField lo v ||| w).toNat = v.toNat * 2 ^ lo + w.toNat := by
  rw [BitVec.toNat_or, toNat_putField v fits, ← Nat.shiftLeft_eq, Nat.shiftLeft_add_eq_or_of_lt below]

/-- The three register slots of a word, as a number (R102). -/
def regSlots (first second third : RegIdx) : Nat :=
  first.toNat * 2 ^ 23 + second.toNat * 2 ^ 19 + third.toNat * 2 ^ 15

section
variable (op : BitVec 5) (d a b : RegIdx) (k : Imm16)

/-- The opcode and the first two register slots, over a word that holds what stands below them. -/
theorem toNat_opcode_slots {w : Word} (below : w.toNat < 2 ^ 19) :
    (putField 27 op ||| (putField 23 d ||| putField 19 a ||| w)).toNat =
      op.toNat * 2 ^ 27 + (regSlots d a 0 + w.toNat) := by
  have ha := toNat_putField_or (lo := 19) a (by decide) below
  have hd := toNat_putField_or (lo := 23) d (by decide) (w := putField 19 a ||| w) (by omega)
  rw [BitVec.or_assoc, toNat_putField_or op (by decide) (by omega), hd, ha]
  simp [regSlots, Nat.add_assoc]

/-- Format RRR (R102). -/
theorem toNat_specRRR :
    (putField 27 op ||| FieldLayout.spec.putRRR d a b).toNat = op.toNat * 2 ^ 27 + regSlots d a b := by
  have hb := toNat_putField (lo := 15) b (by decide)
  exact (toNat_opcode_slots op d a (w := putField 15 b) (by omega)).trans (by simp [regSlots, hb])

/-- Format RRI (R103). -/
theorem toNat_specRRI : (putField 27 op ||| FieldLayout.spec.putRRI d a k).toNat =
    op.toNat * 2 ^ 27 + (regSlots d a 0 + k.toNat * 2 ^ 3) := by
  have hk := toNat_putField (lo := 3) k (by decide)
  exact (toNat_opcode_slots op d a (w := putField 3 k) (by omega)).trans (by rw [hk])

/-- Format RR (R104). -/
theorem toNat_specRR :
    (putField 27 op ||| FieldLayout.spec.putRR d a).toNat = op.toNat * 2 ^ 27 + regSlots d a 0 := by
  have h := toNat_opcode_slots op d a (w := 0#32) (by decide)
  rwa [BitVec.or_zero, BitVec.toNat_zero, Nat.add_zero] at h

/-- Format RI (R105). -/
theorem toNat_specRI : (putField 27 op ||| FieldLayout.spec.putRI d k).toNat =
    op.toNat * 2 ^ 27 + (regSlots d 0 0 + k.toNat * 2 ^ 7) := by
  have hk := toNat_putField (lo := 7) k (by decide)
  have hd := toNat_putField_or (lo := 23) d (by decide) (w := putField 7 k) (by omega)
  exact (toNat_putField_or op (by decide) (w := putField 23 d ||| putField 7 k) (by omega)).trans
    (by simp [regSlots, hd, hk])

/-- Format I (R106). -/
theorem toNat_specI :
    (putField 27 op ||| FieldLayout.spec.putI k).toNat = op.toNat * 2 ^ 27 + k.toNat * 2 ^ 11 := by
  have hk := toNat_putField (lo := 11) k (by decide)
  exact (toNat_putField_or op (by decide) (w := putField 11 k) (by omega)).trans (by rw [hk])

end

/-- Settles O3, format by format: the views are the constructors' arguments, the word a sum of its fields. -/
theorem fieldsStandAtTheirBits : Obligations.FieldsStandAtTheirBits := by
  intro d a b k slots shown
  refine ⟨?_, ?_, ?_, ?_, ?_, ?_⟩
  · intro row hrow
    fin_cases hrow <;> exact ⟨rfl, rfl, rfl, rfl, toNat_specRRR _ d a b⟩
  · intro row hrow
    fin_cases hrow <;> exact ⟨rfl, rfl, rfl, rfl, toNat_specRRI _ d a k⟩
  · intro row hrow
    fin_cases hrow <;> exact ⟨rfl, rfl, rfl, rfl, toNat_specRRI _ a b k⟩
  · intro row hrow
    fin_cases hrow <;> exact ⟨rfl, rfl, rfl, rfl, toNat_specRR _ d a⟩
  · exact ⟨rfl, rfl, rfl, rfl, toNat_specRI _ d k⟩
  · intro row hrow
    fin_cases hrow <;> exact ⟨rfl, rfl, rfl, rfl, toNat_specI _ k⟩

end Sys2Proof
end

section
/-!
The operands Execute uses: forwarding with its index check, and the reads Issue does not capture (R156 to R161).
-/

namespace Sys2Proof.Machine

section
variable {s : State} {r : RegIdx}

/-! ### Forwarding -/

/-- For an existing register the captured value never shows (R156, R157). -/
theorem State.fwd_ok (v : Word) (h : r.toNat < s.cfg.numGpr) : s.fwd r v = .ok (s.operand r) := by
  simp [State.fwd, State.checkReg_ok _ _ h, State.fwdValue_eq, Except.map]

theorem State.fwd_missing (v : Word) (h : s.cfg.numGpr ≤ r.toNat) :
    s.fwd r v = .error ⟨.registerFault, .execute, .register r.toNat, some s.executing.fetchLoc⟩ := by
  simp [State.fwd, State.checkReg_missing _ _ h, Except.map]

/-- With the write Writeback schedules in it, the register file holds every operand (R161). -/
theorem readReg_writeReg_dest (hw : s.ew.instr.wbWrites = true) :
    readReg (writeReg s.regs s.ew.instr.dest.toNat s.ew.wbValue) r.toNat = s.operand r := by
  simp [State.operand, hw, BitVec.toNat_inj, s.ew.instr.dest.isLt]

theorem State.operand_of_no_write (hw : s.ew.instr.wbWrites = false) : s.operand r = readReg s.regs r.toNat := by
  simp [State.operand, hw]

theorem State.lateValue_forwarded (h : s.cfg.storeBaseForward = true) : s.lateValue r = s.operand r := by
  simp [State.lateValue_eq, State.lateOperand, h]

theorem State.lateValue_plain (h : s.cfg.storeBaseForward = false) : s.lateValue r = readReg s.regs r.toNat := by
  simp [State.lateValue_eq, State.lateOperand, h]

/-! ### What BL pushes -/

/-- Where Execute raises no fault it completes. -/
theorem completes_of_exec {i : Instr} {t : State} (h : exec i s = .next t) (ht : t.raised = none) :
    Completes s i t := by
  rcases exec_cases s i with ⟨f, he⟩ | ⟨t', he, hc⟩ <;> cases h.symm.trans he
  · cases ht
  · exact hc

/-- The entry of register `k` in a pushed frame, counted from the top (R273). -/
theorem getElem?_pushRegs (value : Nat → Word) {n k : Nat} (st : List Word) (hk : k < n) :
    (pushRegs value n st)[n - 1 - k]? = some (value k) := by
  rw [pushRegs_eq, List.getElem?_append_left (by simp; omega), List.getElem?_reverse (by simp; omega)]
  simp [show n - 1 - (n - 1 - k) = k by omega, hk]

/-- What BL pushes for a register is its late read (R274). -/
theorem getElem?_stack_of_bl {t : State} {k : Imm16} (h : Completes s (.bl k) t) (hr : r.toNat < s.cfg.numGpr) :
    t.stack[s.cfg.numGpr - r.toNat]? = some (s.lateValue r) := by
  cases h
  case called =>
    rw [State.takeUnlessPredicted_stack, show s.cfg.numGpr - r.toNat = s.cfg.numGpr - 1 - r.toNat + 1 by omega,
      List.getElem?_cons_succ, getElem?_pushRegs _ _ hr, BitVec.ofNat_toNat, BitVec.setWidth_eq]
  case computed hi | predicted hi | mispredicted hi => cases hi

end

/-- Settles O7: a missing register faults, an existing one gives its operand. -/
theorem operandForwarding : Obligations.OperandForwarding := by
  intro s r v
  rcases s.exists_or_missing r with h | h
  · rw [if_neg (Nat.not_le.2 h), State.fwd_ok v h, State.operand]
    split <;> rfl
  · rw [if_pos h, State.fwd_missing v h]

/-- Settles O8: Writeback writes the register the operand is forwarded from, or none. -/
theorem operandIsTheCommittedValue : Obligations.OperandIsTheCommittedValue := by
  intro s r v wb hw hr
  rw [State.fwd_ok v hr]
  rcases writeback_ok_cases hw with ⟨hww, rfl⟩ | ⟨hww, -, -, rfl⟩
  · exact congrArg _ (State.operand_of_no_write hww)
  · exact congrArg _ (readReg_writeReg_dest hww).symm

/-- Settles O9, by the two values of STORE_BASE_FORWARD. -/
theorem lateReadsFollowStoreBaseForward : Obligations.LateReadsFollowStoreBaseForward := by
  intro s r hr
  refine ⟨fun h v => ?_, fun h => ?_, fun k t he ht => ?_⟩
  · rw [State.storeBase_ok hr, ← State.lateValue_eq, State.lateValue_forwarded h, State.fwd_ok v hr]
    exact ⟨rfl, rfl⟩
  · rw [State.storeBase_ok hr, ← State.lateValue_eq, State.lateValue_plain h]
    exact ⟨rfl, rfl⟩
  · exact getElem?_stack_of_bl (completes_of_exec he (t.raised_of_running ht)) hr

end Sys2Proof.Machine
end

section
/-!
The stages around Execute, one law per answer each of them can give: the predictor, Fetch, Decode, Issue and Writeback
(R142 to R151, R163 to R165), and how long CTX keeps its values (R160).
-/

namespace Sys2Proof

/-- A field is the number that stands from its lowest bit up (R9). -/
theorem getField_eq_ofNat (n lo : Nat) (w : Word) : getField n lo w = BitVec.ofNat n (w.toNat / 2 ^ lo) := by
  apply BitVec.eq_of_toNat_eq
  simp [getField, Nat.shiftRight_eq_div_pow]

/-- Sign extension keeps the signed value (R107). -/
theorem toInt_sext16 (k : Imm16) : (sext16 k).toInt = k.toInt :=
  BitVec.toInt_signExtend_of_le (by decide)

/-- Writeback's instructions: the ALU's and LSU's other than NOP and ST (R163). -/
theorem Instr.wbWrites_iff (i : Instr) : i.wbWrites = true ↔ i.unit ≠ .BRU ∧ i.mnem ≠ .NOP ∧ i.mnem ≠ .ST := by
  cases hu : i.unit <;> simp [Instr.wbWrites, hu]

/-- An opcode below 26 names a mnemonic (R110, R114). -/
theorem Encoding.exists_mnem {e : Encoding} {op : BitVec 5} (he : e.wf = true) (h : op.toNat < 26) :
    ∃ m, e.mnem op = some m :=
  Option.ne_none_iff_exists'.1 (mt (Encoding.mnem_eq_none he op).1 (Nat.not_le.2 h))

end Sys2Proof

namespace Sys2Proof.Machine

/-! ### Prediction and the shadow PC -/

theorem predict_eq_true_iff (m : Mnem) (imm : Word) :
    predict m imm = true ↔
      m = .BU ∨ m = .BL ∨ m = .RET ∨ ((m = .BEQ ∨ m = .BNE ∨ m = .BLT ∨ m = .BGT) ∧ imm.toInt < 0) := by
  cases m with
  | BU | BL | RET => simp [predict]
  | BEQ | BNE | BLT | BGT => simp [predict, BitVec.slt]
  | _ => simp [predict]

/-- A conditional branch that a word's immediate sends backward (R142, R103). -/
abbrev Backward (e : Encoding) (w : Word) (m : Mnem) : Prop :=
  (m = .BEQ ∨ m = .BNE ∨ m = .BLT ∨ m = .BGT) ∧ (getField 16 e.layout.rriImm w).toInt < 0

/-- The prediction Fetch makes for a word (R145). -/
theorem predict_imm_iff (e : Encoding) (w : Word) (m : Mnem) :
    predict m (e.imm m.format w) = true ↔ m = .BU ∨ m = .BL ∨ m = .RET ∨ Backward e w m := by
  rw [predict_eq_true_iff, Backward]
  refine or_congr_right (or_congr_right (or_congr_right (and_congr_right fun hm => ?_)))
  rcases hm with rfl | rfl | rfl | rfl <;> exact toInt_sext16 _ ▸ Iff.rfl

theorem add_one_eq_s32 (a : Word) : a + 1 = s32 (a.toInt + 1) := by
  simp [s32, BitVec.ofInt_add]

/-- The address Fetch goes to next, as an exact sum (R146). -/
theorem shadowPc_imm_eq_s32 (e : Encoding) (w : Word) (m : Mnem) (a : Word) :
    shadowPc m a (e.imm m.format w) = s32 (a.toInt +
      if m = .BU ∨ m = .BL then (getField 16 e.layout.iImm w).toInt
      else if Backward e w m then (getField 16 e.layout.rriImm w).toInt else 1) := by
  have hp := predict_imm_iff e w m
  unfold shadowPc
  by_cases hj : m = .BU ∨ m = .BL
  · rw [if_pos hj]
    rcases hj with rfl | rfl <;> exact add_sext16_eq_s32 a _
  · rw [if_neg hj]
    by_cases hb : Backward e w m
    · rw [if_pos hb]
      have taken : predict m (e.imm m.format w) = true := hp.2 (.inr (.inr (.inr hb)))
      rcases hb with ⟨rfl | rfl | rfl | rfl, -⟩ <;> rw [if_pos ⟨taken, rfl⟩] <;> exact add_sext16_eq_s32 a _
    · rw [if_neg hb, if_neg, add_one_eq_s32]
      rintro ⟨taken, relative⟩
      rcases hp.1 taken with rfl | rfl | rfl | h
      · exact hj (.inl rfl)
      · exact hj (.inr rfl)
      · cases relative
      · exact hb h

/-! ### Fetch -/

section
variable {s : State}

theorem fetch_out (h : s.cfg.inRange s.pc = false) :
    fetch s = .error ⟨.memoryFault, .fetch, .address s.pc.toInt, none⟩ := by
  simp [fetch, State.memRead_out _ _ h, bind, Except.bind]

theorem fetch_illegal {w : Word} (h : s.cfg.inRange s.pc = true) (hw : s.mem.read s.pc.toNat = w)
    (hm : s.cfg.encoding.mnem (s.cfg.encoding.opcodeField w) = none) :
    fetch s =
      .error ⟨.registerFault, .fetch, .irOpcode w (s.cfg.encoding.opcodeField w) s.pc, some s.pc⟩ := by
  subst hw
  simp [fetch, State.memRead_ok _ _ h, hm, bind, Except.bind]

theorem fetch_ok {w : Word} {m : Mnem} (h : s.cfg.inRange s.pc = true) (hw : s.mem.read s.pc.toNat = w)
    (hm : s.cfg.encoding.mnem (s.cfg.encoding.opcodeField w) = some m) :
    fetch s = .ok (⟨w, s.pc, predict m (s.cfg.encoding.imm m.format w)⟩,
      shadowPc m s.pc (s.cfg.encoding.imm m.format w)) := by
  subst hw
  simp [fetch, State.memRead_ok _ _ h, hm, bind, Except.bind, pure, Except.pure]

/-! ### Decode -/

theorem decodeStage_ok {i : Instr} (h : decode s.cfg.encoding s.fd.word = .ok i) :
    decodeStage s = .ok ⟨i, 0, 0, 0, s.fd.fetchLoc, s.fd.predTaken, false⟩ := by
  simp [decodeStage, h]

theorem decodeStage_error {r : DecodeReject} (h : decode s.cfg.encoding s.fd.word = .error r) :
    decodeStage s = .error ⟨.decodeFault, .decode, .word s.fd.word s.fd.fetchLoc, some s.fd.fetchLoc⟩ := by
  simp [decodeStage, h]

/-! ### Issue -/

theorem issue_both (h : issueReads s.di.instr = .both) (h1 : s.di.instr.src1.toNat < s.cfg.numGpr)
    (h2 : s.di.instr.src2.toNat < s.cfg.numGpr) :
    issue s = .ok { s.di with
      val1 := readReg s.regs s.di.instr.src1.toNat
      val2 := readReg s.regs s.di.instr.src2.toNat
      depFlag := false } := by
  simp [issue, h, State.checkReg_ok _ _ h1, State.checkReg_ok _ _ h2, bind, Except.bind, pure, Except.pure]

theorem issue_first (h : issueReads s.di.instr = .first) (h1 : s.di.instr.src1.toNat < s.cfg.numGpr) :
    issue s = .ok { s.di with val1 := readReg s.regs s.di.instr.src1.toNat, depFlag := false } := by
  simp [issue, h, State.checkReg_ok _ _ h1, bind, Except.bind, pure, Except.pure]

theorem issue_none (h : issueReads s.di.instr = .none) : issue s = .ok { s.di with depFlag := false } := by
  simp [issue, h, pure, Except.pure]

theorem issue_missing1 (h : issueReads s.di.instr ≠ .none) (h1 : s.cfg.numGpr ≤ s.di.instr.src1.toNat) :
    issue s = .error ⟨.registerFault, .issue, .register s.di.instr.src1.toNat, some s.di.fetchLoc⟩ := by
  cases hr : issueReads s.di.instr
  case none => exact absurd hr h
  all_goals simp [issue, hr, State.checkReg_missing _ _ h1, bind, Except.bind]

theorem issue_missing2 (h : issueReads s.di.instr = .both) (h1 : s.di.instr.src1.toNat < s.cfg.numGpr)
    (h2 : s.cfg.numGpr ≤ s.di.instr.src2.toNat) :
    issue s = .error ⟨.registerFault, .issue, .register s.di.instr.src2.toNat, some s.di.fetchLoc⟩ := by
  simp [issue, h, State.checkReg_ok _ _ h1, State.checkReg_missing _ _ h2, bind, Except.bind]

/-! ### Writeback -/

theorem commitsTo_of_wbWrites (h : s.ew.instr.wbWrites = true) : s.CommitsTo s.ew.instr.dest s.ew.wbValue := by
  unfold State.CommitsTo
  by_cases hr : s.ew.instr.dest.toNat = s.cfg.reservedReg
  · simp [writeback, h, hr]
  · rcases s.exists_or_missing s.ew.instr.dest with hd | hd
    · simp [writeback, h, hr, Nat.not_le.2 hd, State.checkReg_ok _ _ hd, bind, Except.bind, pure, Except.pure]
    · simp [writeback, h, hr, hd, State.checkReg_missing _ _ hd, bind, Except.bind]

theorem writeback_none (h : s.ew.instr.wbWrites = false) : writeback s = .ok none := by
  simp [writeback, h, pure, Except.pure]

end

/-! ### The formats Issue tells apart (R150) -/

section
variable {i : Instr}

theorem issueReads_both_iff :
    issueReads i = .both ↔ i.format = .RRR ∨ i.mnem = .BEQ ∨ i.mnem = .BNE ∨ i.mnem = .BLT ∨ i.mnem = .BGT := by
  simp only [issueReads, Instr.format]
  cases i.mnem <;> decide

theorem issueReads_first_iff :
    issueReads i = .first ↔
      (i.format = .RRI ∧ i.mnem ≠ .BEQ ∧ i.mnem ≠ .BNE ∧ i.mnem ≠ .BLT ∧ i.mnem ≠ .BGT) ∨ i.format = .RR := by
  simp only [issueReads, Instr.format]
  cases i.mnem <;> decide

theorem issueReads_none_iff : issueReads i = .none ↔ i.format = .RI ∨ i.format = .I := by
  simp only [issueReads, Instr.format]
  cases i.mnem <;> decide

end

/-- Settles O28: the unit's effect on CTX, where Execute raises no fault. -/
theorem contextLifetime : Obligations.ContextLifetime := by
  intro i s t _ he ht
  rcases (completes_of_exec he (t.raised_of_running ht)).ctx_cases with ⟨hu, hc⟩ | ⟨hu, hc⟩
  · exact ⟨fun _ => hc, fun h => absurd h hu⟩
  · exact ⟨fun h => absurd hu h, fun _ => hc⟩

/-- Settles O29, mnemonic by mnemonic. -/
theorem staticPrediction : Obligations.StaticPrediction := predict_eq_true_iff

/-- Settles O30: the range, then the opcode, then the latch and the shadow PC. -/
theorem fetchStage : Obligations.FetchStage := by
  intro s hwf e w op imm inRange
  obtain ⟨-, -, he⟩ := Config.wf_registers_encoding hwf
  have hop : e.opcodeField w = op := getField_eq_ofNat 5 _ w
  have himm (lo : Nat) : imm lo = (getField 16 lo w).toInt := by rw [getField_eq_ofNat]
  have hin : s.cfg.inRange s.pc = true ↔ inRange := Config.inRange_iff _ _
  refine ⟨fun h => ?_, fun h hlarge => ?_, fun h hsmall => ?_⟩
  · exact ⟨_, fetch_out (Bool.eq_false_iff.2 (mt hin.1 h)), rfl, rfl, rfl⟩
  · have hm : e.mnem (e.opcodeField w) = none := (Encoding.mnem_eq_none he _).2 (hop ▸ hlarge)
    exact ⟨_, fetch_illegal (hin.2 h) rfl hm, rfl, rfl, hop ▸ rfl⟩
  · obtain ⟨m, hm⟩ := Encoding.exists_mnem he (hop ▸ hsmall : (e.opcodeField w).toNat < 26)
    refine ⟨m, _, _, ?_, fetch_ok (hin.2 h) rfl hm, ?_⟩
    · rw [← hop, (Encoding.mnem_eq_some he _ _).1 hm]
    · simp only [himm]
      exact ⟨predict_imm_iff e w m, shadowPc_imm_eq_s32 e w m s.pc⟩

/-- Settles O31, by the decoder's answer. -/
theorem decodeStageRule : Obligations.DecodeStageRule := by
  refine fun s => ⟨fun _ => decodeStage_ok, fun hno => ?_⟩
  cases hd : decode s.cfg.encoding s.fd.word with
  | ok i => exact absurd hd (hno i)
  | error r => exact decodeStage_error hd

/-- Settles O32, by what Issue reads. -/
theorem issueCaptures : Obligations.IssueCaptures := by
  intro s i missing both first x1 x2
  have hboth : both → issueReads i = .both := issueReads_both_iff.2
  have hfirst : first → issueReads i = .first := issueReads_first_iff.2
  refine ⟨fun h => issue_both (hboth h), fun h => issue_first (hfirst h),
    fun h => issue_none (issueReads_none_iff.2 h), fun h => issue_missing1 ?_, fun h => issue_missing2 (hboth h)⟩
  show issueReads i ≠ .none
  rcases h with h | h
  · rw [hboth h]; decide
  · rw [hfirst h]; decide

/-- Settles O33, by whether the instruction in EW writes. -/
theorem writebackRule : Obligations.WritebackRule := by
  intro s i commits
  have hw : i.wbWrites = true ↔ commits := i.wbWrites_iff
  exact ⟨fun h => commitsTo_of_wbWrites (hw.2 h), fun h => writeback_none (Bool.eq_false_iff.2 (mt hw.1 h))⟩

end Sys2Proof.Machine
end

section
/-!
The cycle around Execute (R140, R152, R170 to R176): which cycles commit, what each latch takes, and the statements
about the latches, the hold, the flush, the stops and the checks.
-/

namespace Sys2Proof.Machine

section
variable {s t u : State}

/-! ### Which cycles commit and which fault -/

/-- A running core's cycle, from Execute's answer. -/
theorem step_eq (hs : s.status = .running) (he : exec s.executing.instr s = .next t) :
    step s = .next (endOfCycle s t) := by
  simp only [step, hs, he]
  rfl

theorem exec_next (i : Instr) (s : State) : ∃ t, exec i s = .next t := by
  rcases exec_cases s i with ⟨f, he⟩ | ⟨t, he, -⟩ <;> exact ⟨_, he⟩

theorem endOfCycle_commit {fe : FrontEnd} {wb : Option (RegIdx × Word)} (hf : frontEnd s = .ok fe)
    (hr : t.raised = none) (hw : writeback s = .ok wb) :
    endOfCycle s t = commitCycle t s.executing.instr fe wb := by
  simp [endOfCycle, hf, hr, hw]

/-- A fault of the front end is reported whatever the later stages do (R335, R337). -/
theorem step_of_frontEnd_error {f : FaultInfo} (hs : s.status = .running) (hf : frontEnd s = .error f) :
    step s = .next (s.takeFault f) := by
  obtain ⟨t, he⟩ := exec_next s.executing.instr s
  rw [step_eq hs he]
  simp [endOfCycle, hf]

/-- A cycle that did not fault committed what Execute answered. -/
theorem step_commits (he : exec s.executing.instr s = .next t) (h : step s = .next u) (hu : u.NotFaulted) :
    ∃ fe wb, frontEnd s = .ok fe ∧ u = commitCycle t s.executing.instr fe wb := by
  obtain ⟨-, t', he', ⟨f, rfl, -⟩ | ⟨fe, wb, hf, -, -, rfl⟩⟩ := step_next_cases h
  · cases hu
  · cases he.symm.trans he'
    exact ⟨fe, wb, hf, rfl⟩

section
variable (i : Instr) (fe : FrontEnd) (wb : Option (RegIdx × Word))

/-- Where Execute redirected, the commit flushes (R170, R171). -/
theorem commitCycle_redirected (h : t.ctx.branchTaken = true) :
    let u := commitCycle t i fe wb
    u.pc = t.ctx.branchTarget ∧ u.fd = FetchLatch.flushed ∧ u.di = Record.nop ∧ u.iq = [] := by
  simp [h]

/-- Where it did not, the commit takes what the front end produced (R170). -/
theorem commitCycle_continued (h : t.ctx.branchTaken = false) :
    let u := commitCycle t i fe wb
    u.pc = fe.spc ∧ u.fd = fe.fd ∧ u.di = fe.di ∧ u.iq = fe.iq := by
  simp [h]

theorem commitCycle_notFaulted : (commitCycle t i fe wb).NotFaulted := by
  simp only [State.NotFaulted, State.raised, commitCycle_status]
  split_ifs <;> rfl

end

/-- The executed record stands in EW after the commit (R174). -/
theorem Completes.commitCycle_ew {i : Instr} (h : Completes s i t) (fe : FrontEnd) (wb : Option (RegIdx × Word)) :
    let u := commitCycle t i fe wb
    u.ew.instr = i ∧ u.ew.fetchLoc = s.executing.fetchLoc ∧ u.ew.predTaken = s.executing.predTaken := by
  obtain ⟨v, hew⟩ := h.ew_eq
  simp [hew]

/-- Whoever answers a next state was running, and so did not stand at a fault. -/
theorem notFaulted_of_step (h : step s = .next u) : s.NotFaulted := s.raised_of_running (step_next_cases h).1

/-- Nothing writes the parameters (R67). -/
theorem step_cfg (h : step s = .next u) : u.cfg = s.cfg := by
  obtain ⟨-, -, -, -, hcfg⟩ := specialRegisterWriters s u h
  exact hcfg

/-! ### The front end -/

theorem frontEnd_held (h : s.isReady = false) :
    frontEnd s = .ok ⟨s.fd, { s.di with depFlag := true }, [], s.pc⟩ := by
  simp [frontEnd, h, pure, Except.pure]

theorem frontEnd_fetch_error {f : FaultInfo} (hr : s.isReady = true) (hf : fetch s = .error f) :
    frontEnd s = .error f := by
  simp [frontEnd, hr, hf, bind, Except.bind]

theorem frontEnd_decode_error {f : FaultInfo} {a : FetchLatch × Word} (hr : s.isReady = true) (hf : fetch s = .ok a)
    (hd : decodeStage s = .error f) : frontEnd s = .error f := by
  simp [frontEnd, hr, hf, hd, bind, Except.bind]

theorem isReady_of_stub (h : s.cfg.isReadyStub = true) : s.isReady = true := by
  simp [State.isReady, h]

theorem isReady_of_no_stub (h : s.cfg.isReadyStub = false) : s.isReady = Config.isReady s.di s.regs := by
  simp [State.isReady, h]

end

/-- Settles O34: Execute answers for the head of IQ, and for NOP where there is none. -/
theorem stepExecutesTheQueueHead : Obligations.StepExecutesTheQueueHead := by
  intro s hs
  obtain ⟨t, he⟩ := exec_next s.executing.instr s
  have hstep := step_eq hs he
  refine ⟨fun r rest hq => ⟨t, ?_, hstep⟩, fun hq => ⟨t, ?_, hstep⟩⟩
  · rwa [s.executing_cons r rest hq] at he
  · rwa [s.executing_nil hq] at he

/-- Settles O38, with and without a redirect. -/
theorem redirectFlushes : Obligations.RedirectFlushes := by
  intro s u h hu
  obtain ⟨t, fe, wb, ht, hf, -, rfl⟩ := step_cases_of_notFaulted h hu
  obtain ⟨hinstr, hloc, -⟩ := ht.commitCycle_ew fe wb
  refine ⟨hinstr, hloc, fe, hf, commitCycle_spc .., ?_⟩
  rw [commitCycle_ctx]
  refine ⟨fun hb => ?_, commitCycle_continued _ fe wb⟩
  obtain ⟨hpc, hfd, hdi, hiq⟩ := commitCycle_redirected s.executing.instr fe wb hb
  exact ⟨hpc, hfd, hiq, hdi⟩

/-- Settles O43: the status a commit leaves. -/
theorem endOfCycleChecks : Obligations.EndOfCycleChecks := by
  intro s u h hu
  obtain ⟨t, fe, wb, ht, -, -, rfl⟩ := step_cases_of_notFaulted h hu
  obtain ⟨-, -, -, -, -, -, hcyc, -⟩ := ht.frame
  rw [commitCycle_cyc, commitCycle_svc, commitCycle_cfg, commitCycle_status, hcyc]
  refine ⟨rfl, fun hsvc => if_pos hsvc, fun hsvc hmax => ?_, fun hsvc hmax => ?_⟩
  · rw [if_neg hsvc, if_pos hmax]
  · rw [if_neg hsvc, if_neg (Nat.not_le.2 hmax)]

/-- Settles O37: the front end's three stages, each handing on what stood before it. -/
theorem latchesAdvance : Obligations.LatchesAdvance := by
  intro s u h hu hb hready
  obtain ⟨t, fe, wb, ht, hf, -, rfl⟩ := step_cases_of_notFaulted h hu
  rw [commitCycle_ctx] at hb
  rcases frontEnd_ok_cases hf with ⟨-, f, d, q, hfetch, hdecode, hissue, rfl⟩ | ⟨hheld, -⟩
  · obtain ⟨-, hword, hloc, m, hm, hpred, -⟩ := fetch_ok_cases hfetch
    obtain ⟨hd, hrec⟩ := decodeStage_ok_cases hdecode
    obtain ⟨hqi, hql, hqp, -⟩ := issue_ok_cases hissue
    have hdl : d.fetchLoc = s.fd.fetchLoc := by rw [hrec]
    have hdp : d.predTaken = s.fd.predTaken := by rw [hrec]
    obtain ⟨-, hfd, hdi, hiq⟩ := commitCycle_continued s.executing.instr ⟨f.1, d, [q], f.2⟩ wb hb
    rw [hfd, hdi, hiq]
    exact ⟨hword, hloc, ⟨m, hm, hpred⟩, hd, hdl, hdp, ⟨q, rfl, hqi, hql, hqp⟩, ht.commitCycle_ew _ wb⟩
  · cases hready.symm.trans hheld

/-- Settles O39: the held front end, overridden by a redirect, and the ready one. -/
theorem dependencyCheckHoldsTheFrontEnd : Obligations.DependencyCheckHoldsTheFrontEnd := by
  intro s t hs hstub he ht hwb
  obtain ⟨wb, hw⟩ := hwb
  refine ⟨fun hno => ?_, fun hyes hb u h hu => ?_⟩
  · have hf := frontEnd_held ((isReady_of_no_stub hstub).trans hno)
    refine ⟨_, (step_eq hs he).trans (congrArg _ (endOfCycle_commit hf (t.raised_of_running ht) hw)),
      commitCycle_notFaulted _ _ _, ?_⟩
    split
    next hb =>
      obtain ⟨hpc, hfd, hdi, hiq⟩ := commitCycle_redirected s.executing.instr _ wb hb
      exact ⟨hpc, hdi, hiq, hfd⟩
    next hb =>
      obtain ⟨hpc, hfd, hdi, hiq⟩ := commitCycle_continued s.executing.instr _ wb (Bool.not_eq_true _ ▸ hb)
      exact ⟨hdi, hiq, hfd, commitCycle_spc .., hpc⟩
  · obtain ⟨fe, wb', hf, rfl⟩ := step_commits he h hu
    have hready := (isReady_of_no_stub hstub).trans hyes
    rcases frontEnd_ok_cases hf with ⟨-, f, d, q, hfetch, hdecode, hissue, rfl⟩ | ⟨hheld, -⟩
    · obtain ⟨-, -, hloc, -⟩ := fetch_ok_cases hfetch
      obtain ⟨-, hrec⟩ := decodeStage_ok_cases hdecode
      obtain ⟨hqi, -, -, hqf⟩ := issue_ok_cases hissue
      obtain ⟨-, hfd, hdi, hiq⟩ := commitCycle_continued s.executing.instr ⟨f.1, d, [q], f.2⟩ wb' hb
      exact ⟨by rw [hfd, hloc], by rw [hdi, hrec], by rw [hdi, hrec], q, hiq, hqi, hqf⟩
    · cases hready.symm.trans hheld

/-- Settles O42: Fetch's fault comes first, and Decode's where the fetch is good. -/
theorem illegalWordsStopTheCore : Obligations.IllegalWordsStopTheCore := by
  intro s hwf hs hready hlow hhigh w op
  obtain ⟨-, -, he⟩ := Config.wf_registers_encoding hwf
  have hin : s.cfg.inRange s.pc = true := (Config.inRange_iff _ _).2 ⟨hlow, hhigh⟩
  have hop : s.cfg.encoding.opcodeField w = op := getField_eq_ofNat 5 _ w
  refine ⟨fun hlarge => ?_, fun hsmall hd => ?_⟩
  · have hm : s.cfg.encoding.mnem (s.cfg.encoding.opcodeField w) = none :=
      (Encoding.mnem_eq_none he _).2 (hop ▸ hlarge)
    exact ⟨_, step_of_frontEnd_error hs (frontEnd_fetch_error hready (fetch_illegal hin rfl hm)), rfl, rfl,
      hop ▸ rfl⟩
  · obtain ⟨m, hm⟩ := Encoding.exists_mnem he (hop ▸ hsmall : (s.cfg.encoding.opcodeField w).toNat < 26)
    exact step_of_frontEnd_error hs
      (frontEnd_decode_error hready (fetch_ok hin rfl hm) (decodeStage_error hd))

/-- The prediction made for a word is the one of the instruction it decodes to (R143). -/
theorem predict_of_decode {e : Encoding} {w : Word} {i : Instr} {m : Mnem} (h : decode e w = .ok i)
    (hm : e.mnem (e.opcodeField w) = some m) : predict m (e.imm m.format w) = predict i.mnem i.imm := by
  obtain ⟨hm', -, hread⟩ := decode_ok_cases h
  obtain rfl : i.mnem = m := Option.some.inj (hm'.symm.trans hm)
  rw [← imm_read, hread]

/-- Settles O35: the word goes through FD, DI and IQ, one latch a cycle. -/
theorem fetchedWordExecutesThreeCyclesLater : Obligations.FetchedWordExecutesThreeCyclesLater := by
  intro s u1 u2 u3 i hstub hdecode h1 h2 h3 hrun hb1 hb2 hb3
  have hcfg1 := step_cfg h1
  have hcfg2 := (step_cfg h2).trans hcfg1
  obtain ⟨hword, hfl, ⟨m, hm, hfp⟩, -⟩ :=
    latchesAdvance s u1 h1 (notFaulted_of_step h2) hb1 (isReady_of_stub hstub)
  obtain ⟨-, -, -, hdi, hdl, hdp, -⟩ :=
    latchesAdvance u1 u2 h2 (notFaulted_of_step h3) hb2 (isReady_of_stub (hcfg1 ▸ hstub))
  obtain ⟨-, -, -, -, -, -, ⟨q, hq, hqi, hql, hqp⟩, -⟩ :=
    latchesAdvance u2 u3 h3 (u3.raised_of_running hrun) hb3 (isReady_of_stub (hcfg2 ▸ hstub))
  have hexecuting := u3.executing_cons q [] hq
  have hinstr : u2.di.instr = i := by
    rw [hcfg1, hword, hdecode] at hdi
    exact (Except.ok.inj hdi).symm
  have hpred : u1.fd.predTaken = predict i.mnem i.imm := by
    rw [hword] at hm hfp
    exact hfp.trans (predict_of_decode hdecode hm)
  have hi : u3.executing.instr = i := by rw [hexecuting, hqi, hinstr]
  obtain ⟨t, he⟩ := exec_next i u3
  refine ⟨hi, ?_, ?_, t, he, step_eq hrun (hi.symm ▸ he)⟩
  · rw [hexecuting, hql, hdl, hfl]
  · rw [hexecuting, hqp, hdp, hpred]

end Sys2Proof.Machine
end

section
/-!
The Arithmetic/Logic Unit (R202 to R216): its functions on words as the arithmetic the spec writes, and the law by which
a value computed in Execute is the one Writeback commits.
-/

namespace Sys2Proof

/-! ### Arithmetic narrowed to a word (R10) -/

section
variable (x y : Word)

theorem add_eq_s32 : x + y = s32 (x.toInt + y.toInt) :=
  BitVec.eq_of_toInt_eq (by rw [s32, BitVec.toInt_add, BitVec.toInt_ofInt])

theorem sub_eq_s32 : x - y = s32 (x.toInt - y.toInt) :=
  BitVec.eq_of_toInt_eq (by rw [s32, BitVec.toInt_sub, BitVec.toInt_ofInt])

theorem mul_eq_s32 : x * y = s32 (x.toInt * y.toInt) :=
  BitVec.eq_of_toInt_eq (by rw [s32, BitVec.toInt_mul, BitVec.toInt_ofInt])

end

end Sys2Proof

namespace Sys2Proof.Machine

/-! ### The quotient of DIV (R205, R216) -/

section
variable {x y : Word}

theorem toInt_quotient_overflow (h : x.toInt = -2 ^ 31 ∧ y.toInt = -1) : (quotient x y).toInt = -2 ^ 31 := by
  rw [quotient, if_pos h]
  decide

/-- Every other quotient is in range, so narrowing keeps it: it is the library's signed division. -/
theorem toInt_quotient (h : ¬(x.toInt = -2 ^ 31 ∧ y.toInt = -1)) :
    (quotient x y).toInt = x.toInt.tdiv y.toInt := by
  have hne : x ≠ BitVec.intMin 32 ∨ y ≠ -1#32 := by
    refine (not_and_or.1 h).imp ?_ ?_ <;> exact mt fun he => he ▸ by decide
  rw [quotient, if_neg h, s32, BitVec.toInt_ofInt, ← BitVec.toInt_sdiv, BitVec.toInt_sdiv_of_ne_or_ne x y hne]

end

/-! ### Shifts (R210 to R213, R215) -/

/-- The default SHIFT_MASK keeps the low five bits (R215). -/
theorem shiftAmount_default (v : Word) : shiftAmount 31 v = v.toNat % 32 := by
  rw [shiftAmount, BitVec.toNat_and]
  exact Nat.and_two_pow_sub_one_eq_mod v.toNat 5

section
variable (mask v amount : Word)

theorem shiftLeft_eq_mul : shiftLeft mask v amount = BitVec.ofNat 32 (v.toNat * 2 ^ shiftAmount mask amount) := by
  rw [shiftLeft, ← Nat.shiftLeft_eq]
  exact BitVec.eq_of_toNat_eq (by simp)

theorem shiftRightLogical_eq_div :
    shiftRightLogical mask v amount = BitVec.ofNat 32 (v.toNat / 2 ^ shiftAmount mask amount) := by
  rw [shiftRightLogical, ← Nat.shiftRight_eq_div_pow, ← BitVec.toNat_ushiftRight, BitVec.ofNat_toNat,
    BitVec.setWidth_eq]

theorem shiftRightArith_eq_div :
    shiftRightArith mask v amount = s32 (v.toInt / 2 ^ shiftAmount mask amount) := by
  simp [shiftRightArith, BitVec.sshiftRight, s32, Int.shiftRight_eq_div_pow]

end

/-! ### From Execute to Writeback (R154, R164) -/

section
variable {s : State} {i : Instr} {a b : RegIdx} {v : Word}

/-- What a writing instruction retires with, Writeback commits to its `dest`. -/
theorem State.computes_of_retire (he : exec i s = .next (s.retire i v)) (hw : i.wbWrites = true) :
    s.Computes i i.dest v :=
  ⟨he, commitsTo_of_wbWrites (s := s.retire i v) hw⟩

theorem State.computes_aluRegReg {f : Word → Word → Word} (he : exec i s = aluRegReg i a b f s)
    (hw : i.wbWrites = true) (ha : a.toNat < s.cfg.numGpr) (hb : b.toNat < s.cfg.numGpr)
    (hv : f (s.operand a) (s.operand b) = v) : s.Computes i i.dest v :=
  computes_of_retire (by rw [he, aluRegReg_ok i f ha hb, hv]) hw

theorem State.computes_aluReg {f : Word → Word} (he : exec i s = aluReg i a f s) (hw : i.wbWrites = true)
    (ha : a.toNat < s.cfg.numGpr) (hv : f (s.operand a) = v) : s.Computes i i.dest v :=
  computes_of_retire (by rw [he, aluReg_ok i f ha, hv]) hw

/-- R205 -/
theorem State.faults_div_zero {d : RegIdx} (ha : a.toNat < s.cfg.numGpr) (hb : b.toNat < s.cfg.numGpr)
    (h0 : s.operand b = 0) :
    s.Faults (.div d a b) .arithmeticFault (.divisor s.executing.fetchLoc) :=
  (execDiv_ok s ha hb).trans (by rw [if_pos h0]; rfl)

theorem State.computes_div {d : RegIdx} (ha : a.toNat < s.cfg.numGpr) (hb : b.toNat < s.cfg.numGpr)
    (h0 : s.operand b ≠ 0) : s.Computes (.div d a b) d (quotient (s.operand a) (s.operand b)) :=
  computes_of_retire ((execDiv_ok s ha hb).trans (by rw [if_neg h0])) rfl

end

/-- Settles O10, by the three narrowed operations on words. -/
theorem addSubMulResults : Obligations.AddSubMulResults := by
  intro s d a b ha hb
  refine ⟨⟨⟨rfl, rfl, rfl, rfl⟩, ?add⟩, ⟨⟨rfl, rfl, rfl, rfl⟩, ?sub⟩, ⟨⟨rfl, rfl, rfl, rfl⟩, ?mul⟩⟩
  case add => exact State.computes_aluRegReg rfl rfl ha hb (add_eq_s32 _ _)
  case sub => exact State.computes_aluRegReg rfl rfl ha hb (sub_eq_s32 _ _)
  case mul => exact State.computes_aluRegReg rfl rfl ha hb (mul_eq_s32 _ _)

/-- Settles O11, by whether the divisor is zero and whether the quotient overflows. -/
theorem divResult : Obligations.DivResult := by
  intro s d a b ha hb
  refine ⟨⟨rfl, rfl, rfl, rfl⟩, State.faults_div_zero ha hb, fun h0 => ⟨_, State.computes_div ha hb h0, ?_⟩⟩
  split
  case isTrue h => exact toInt_quotient_overflow h
  case isFalse h => exact toInt_quotient h

/-- Settles O12: the words' connectives act bit by bit. -/
theorem bitwiseResults : Obligations.BitwiseResults := by
  intro s d a b ha hb
  refine ⟨⟨⟨rfl, rfl, rfl, rfl⟩, s.operand a &&& s.operand b, ?and, fun _ _ => BitVec.getLsbD_and⟩,
    ⟨⟨rfl, rfl, rfl, rfl⟩, s.operand a ||| s.operand b, ?or, fun _ _ => BitVec.getLsbD_or⟩,
    ⟨⟨rfl, rfl, rfl, rfl⟩, s.operand a ^^^ s.operand b, ?xor, fun _ _ => BitVec.getLsbD_xor⟩,
    ⟨⟨rfl, rfl, rfl, rfl⟩, ~~~s.operand a, ?not, fun k hk => by simp [hk]⟩⟩
  case and | or | xor => exact State.computes_aluRegReg rfl rfl ha hb rfl
  case not => exact State.computes_aluReg rfl rfl ha rfl

/-- Settles O13, by the three shifts as multiplication and division by a power of two. -/
theorem shiftResults : Obligations.ShiftResults := by
  intro s d a b imm ha hb
  refine ⟨fun hmask v => ?mask, ⟨⟨rfl, rfl, rfl, rfl⟩, ?sll⟩, ⟨⟨rfl, rfl, rfl, rfl⟩, ?srl⟩,
    ⟨⟨rfl, rfl, rfl, rfl⟩, ?sra⟩, ⟨⟨rfl, rfl, rfl, rfl⟩, ?sllv⟩⟩
  case mask => exact hmask ▸ shiftAmount_default v
  case sll => exact State.computes_aluReg rfl rfl ha (shiftLeft_eq_mul _ _ _)
  case srl => exact State.computes_aluReg rfl rfl ha (shiftRightLogical_eq_div _ _ _)
  case sra => exact State.computes_aluReg rfl rfl ha (shiftRightArith_eq_div _ _ _)
  case sllv => exact State.computes_aluRegReg rfl rfl ha hb (shiftLeft_eq_mul _ _ _)

/-- Settles O14: adding the sign-extended immediate is exact addition, narrowed. -/
theorem addiResult : Obligations.AddiResult := fun _ _ _ _ ha =>
  ⟨⟨rfl, rfl, rfl, rfl⟩, State.computes_aluReg rfl rfl ha (add_sext16_eq_s32 _ _)⟩

end Sys2Proof.Machine
end

section
/-!
The Load/Store Unit (R240 to R245): MOVI, MOVR, LD and ST from Execute to Writeback, at an effective address in range or
out of it.
-/

namespace Sys2Proof.Machine

section
variable {s : State} {d b : RegIdx} {imm : Imm16}

theorem Config.inRange_eq_false_iff (c : Config) (a : Word) :
    c.inRange a = false ↔ ¬(0 ≤ a.toInt ∧ a.toInt < c.memWords) :=
  Bool.eq_false_iff.trans (not_congr (Config.inRange_iff c a))

/-- R242 -/
theorem State.computes_movi : s.Computes (.movi d imm) d (sext16 imm) :=
  computes_of_retire rfl rfl

/-- R243 -/
theorem State.computes_movr (hb : b.toNat < s.cfg.numGpr) : s.Computes (.movr d b) d (s.operand b) :=
  computes_of_retire (execMovr_ok s hb) rfl

end

/-- Settles O16, for the immediate and for the forwarded source. -/
theorem moveResults : Obligations.MoveResults := fun _ _ _ _ =>
  ⟨⟨⟨rfl, rfl, rfl, rfl⟩, State.computes_movi⟩, fun ha => ⟨⟨rfl, rfl, rfl, rfl⟩, State.computes_movr ha⟩⟩

/-- Settles O17, by whether the effective address is in range. -/
theorem loadResult : Obligations.LoadResult := by
  intro s d b imm hb ea
  have hea : ea = effectiveAddress (s.operand b) imm := (effectiveAddress_eq_s32 _ _).symm
  refine ⟨⟨rfl, rfl, rfl, rfl⟩, fun hin => ⟨?exec, ?commit⟩, fun hout => ?fault⟩
  case exec => exact execLd_ok s hb hea ((Config.inRange_iff _ _).2 hin)
  case commit => exact commitsTo_of_wbWrites rfl
  case fault => exact execLd_out s hb hea ((Config.inRange_eq_false_iff _ _).2 hout)

/-- Settles O18, by whether the effective address is in range. -/
theorem storeResult : Obligations.StoreResult := by
  intro s b v imm hwf hb hv base ea i
  have hea : ea = effectiveAddress (s.lateOperand b) imm := (effectiveAddress_eq_s32 _ _).symm
  refine ⟨⟨rfl, rfl, rfl, rfl⟩, fun hin => ⟨s.mem.write ea.toNat (s.operand v), ?exec, ?commit, fun a => ?memory⟩,
    fun hout => ?fault⟩
  case exec => exact execSt_ok s hv hb hea ((Config.inRange_iff _ _).2 hin)
  case commit => exact writeback_none rfl
  case memory => exact Memory.read_write s.mem ea.toNat a (s.operand v) hwf
  case fault => exact execSt_out s hv hb hea ((Config.inRange_eq_false_iff _ _).2 hout)

end Sys2Proof.Machine
end

section
/-!
The Branch Unit (R270 to R281): targets as exact sums, a conditional branch against its prediction, the call and the
return as each other's inverse on the stack, and who moves the stack or redirects in a cycle.
-/

namespace Sys2Proof.Machine

/-! ### Targets and conditions -/

/-- R271 -/
theorem branchTarget_eq_s32 (loc : Word) (imm : Imm16) : branchTarget loc imm = s32 (loc.toInt + imm.toInt) :=
  add_sext16_eq_s32 loc imm

/-- R271, R274 -/
theorem nextLoc_eq_s32 (loc : Word) : nextLoc loc = s32 (loc.toInt + 1) :=
  add_one_eq_s32 loc

section
variable (x y : Word)

/-- R278 -/
theorem condEq_eq_decide : condEq x y = decide (x.toInt = y.toInt) :=
  decide_eq_decide.2 BitVec.toInt_inj.symm

/-- R279 -/
theorem condNe_eq_decide : condNe x y = decide (x.toInt ≠ y.toInt) := by
  rw [decide_not, ← condEq_eq_decide]
  rfl

/-- R280 -/
theorem condLt_eq_decide : condLt x y = decide (x.toInt < y.toInt) :=
  BitVec.slt_eq_decide

/-- R281 -/
theorem condGt_eq_decide : condGt x y = decide (x.toInt > y.toInt) :=
  BitVec.slt_eq_decide

end

/-! ### What each branch does in Execute -/

/-- BU and BL: the redirect, unless the prediction was "taken" (R272, R274). -/
theorem State.takeUnlessPredicted_eq (s : State) (rec : Record) (imm : Imm16) :
    s.takeUnlessPredicted rec imm =
      if rec.predTaken then s else { s with ctx := ⟨true, s32 (rec.fetchLoc.toInt + imm.toInt), false⟩ } := by
  rw [← branchTarget_eq_s32]
  rfl

/-- What BL pushes below the link, as the late reads of the registers (R159, R273). -/
theorem pushRegs_lateValue (s : State) (n : Nat) (st : List Word) :
    pushRegs (fun r => s.lateValue (BitVec.ofNat 4 r)) n st =
      ((List.range n).map fun r => s.lateOperand (BitVec.ofNat 4 r)).reverse ++ st := by
  simp only [pushRegs_eq, State.lateValue_eq]

section
variable {s t : State} {imm : Imm16}

/-- R277: the outcome of an instruction's condition against its prediction. -/
theorem exec_of_condBranch {i : Instr} {a b : RegIdx} {cond : Word → Word → Bool} {taken : Bool}
    (he : exec i s = condBranch i a b imm cond s) (ha : a.toNat < s.cfg.numGpr) (hb : b.toNat < s.cfg.numGpr)
    (hc : cond (s.operand a) (s.operand b) = taken) :
    exec i s = .next
      (if taken = s.executing.predTaken then s.branched i
       else { s.branched i with
         ctx := ⟨true, s32 (s.executing.fetchLoc.toInt + if taken then imm.toInt else 1), false⟩ }) := by
  have target : (if taken then branchTarget s.executing.fetchLoc imm else nextLoc s.executing.fetchLoc) =
      s32 (s.executing.fetchLoc.toInt + if taken then imm.toInt else 1) := by
    cases taken
    · exact nextLoc_eq_s32 _
    · exact branchTarget_eq_s32 _ _
  rw [he, condBranch_ok i imm cond ha hb, hc, target]
  rfl

/-- Where BL's frame fits, it completes (R79, R274). -/
theorem execBl_ok (fits : s.stack.length + s.cfg.frameWords ≤ s.cfg.stackWords) :
    execBl imm s = .next
      (State.takeUnlessPredicted
        { s.retireBranch (.bl imm) with
          lr := nextLoc s.executing.fetchLoc
          stack := nextLoc s.executing.fetchLoc ::
            pushRegs (fun r => s.lateValue (BitVec.ofNat 4 r)) s.cfg.numGpr s.stack }
        s.executing imm) := by
  rw [execBl, if_neg (Nat.not_lt.2 fits)]
  rfl

theorem State.faults_bl_overflow (overflows : s.cfg.stackWords < s.stack.length + s.cfg.frameWords) :
    s.Faults (.bl imm) .memoryFault .stackOverflow := by
  rw [State.Faults, exec, execBl, if_pos overflows]
  rfl

/-- Where the stack holds a frame, RET takes its link and restores its registers (R79, R276). -/
theorem execRet_ok {link : Word} (hlink : s.stack.head? = some link) (holds : s.cfg.frameWords ≤ s.stack.length) :
    execRet imm s = .next
      { s.branched (.ret imm) with
        regs := (popRegs s.cfg.reservedReg s.cfg.numGpr s.stack.tail s.regs).1
        lr := link
        stack := s.stack.drop s.cfg.frameWords
        ctx := ⟨true, link, false⟩ } := by
  have hdrop : (popRegs s.cfg.reservedReg s.cfg.numGpr s.stack.tail s.regs).2 = s.stack.drop s.cfg.frameWords := by
    rw [popRegs_stack, List.drop_tail, Config.frameWords]
  have hhead : s.stack.headD 0 = link := by rw [List.headD_eq_head?_getD, hlink]; rfl
  rw [← hdrop, ← hhead, execRet, if_neg (Nat.not_lt.2 holds)]
  rfl

theorem State.faults_ret_underflow (under : s.stack.length < s.cfg.frameWords) :
    s.Faults (.ret imm) .memoryFault .stackUnderflow := by
  rw [State.Faults, exec, execRet, if_pos under]
  rfl

/-- What RET's loop leaves in each register, by its entry in the frame on top of the stack (R273, R276). -/
theorem readReg_popRegs_tail {reserved n : Nat} (st : List Word) (x : Regs) (hn : n ≤ 16) (hl : n + 1 ≤ st.length)
    (r : Nat) :
    readReg (popRegs reserved n st.tail x).1 r =
      if r < n ∧ r ≠ reserved then st.getD (n - r) 0 else readReg x r := by
  obtain ⟨-, restored⟩ := popRegs_spec reserved n st.tail x hn (by rw [List.length_tail]; omega)
  rw [restored]
  split
  case isTrue hr => exact getD_tail_frame st hr.1
  case isFalse => rfl

/-- BL leaves its link in LR and a whole frame, the link on top, on the stack (R273, R274). -/
theorem Completes.link_frame_of_bl (h : Completes s (.bl imm) t) :
    t.lr = nextLoc s.executing.fetchLoc ∧ t.stack.head? = some t.lr ∧
    t.stack.drop s.cfg.frameWords = s.stack ∧ s.cfg.frameWords ≤ t.stack.length := by
  cases h
  case called => simp [pushRegs_eq, Config.frameWords]
  case computed hi | predicted hi | mispredicted hi => cases hi

/-- A BL from a running core runs on exactly where its frame fits (R79, R274). -/
theorem exec_bl_running_iff (hs : s.status = .running) :
    (∃ t, exec (.bl imm) s = .next t ∧ t.status = .running) ↔
      s.stack.length + s.cfg.frameWords ≤ s.cfg.stackWords := by
  constructor
  · rintro ⟨t, he, ht⟩
    by_contra overflows
    cases he.symm.trans (State.faults_bl_overflow (Nat.not_le.1 overflows))
    cases ht
  · exact fun fits => ⟨_, execBl_ok fits, by simpa using hs⟩

/-- A jump predicted taken leaves CTX as reset (R272, R274). -/
theorem Completes.ctx_of_predicted_jump {i : Instr} (h : Completes s i t) (hi : i.mnem = .BU ∨ i.mnem = .BL)
    (hp : s.executing.predTaken = true) : t.ctx = Context.initial := by
  cases h
  case jumped | called => rw [State.takeUnlessPredicted, if_pos hp]; rfl
  case computed hc | predicted hc | mispredicted hc => rcases hi with hi | hi <;> rw [hi] at hc <;> cases hc
  case loaded | stored | returned | ended => rcases hi with hi | hi <;> cases hi

end

/-- Settles O21, by whether the stack holds a frame. -/
theorem returnResult : Obligations.ReturnResult := by
  intro s imm hn
  refine ⟨⟨rfl, rfl, rfl, rfl⟩, fun link hlink holds =>
    ⟨(popRegs s.cfg.reservedReg s.cfg.numGpr s.stack.tail s.regs).1, ?exec, ?commit, ?registers⟩,
    State.faults_ret_underflow⟩
  case exec => exact execRet_ok hlink holds
  case commit => exact writeback_none rfl
  case registers => exact readReg_popRegs_tail s.stack s.regs hn holds

/-- Settles O24: RET finds the link and the late reads where BL left them. -/
theorem returnUndoesCall : Obligations.ReturnUndoesCall := by
  intro s t u k k' hn he fits hcfg hstack
  have called : Completes s (.bl k) t :=
    Host.Outcome.next.inj (he.symm.trans (execBl_ok fits)) ▸ .called k fits
  obtain ⟨hlr, hlink, hdrop, holds⟩ := called.link_frame_of_bl
  rw [← hstack] at hlink hdrop holds
  rw [← hcfg] at hn hdrop holds
  obtain ⟨-, returns, -⟩ := returnResult u k' hn
  obtain ⟨x, hret, -, restored⟩ := returns t.lr hlink holds
  refine ⟨_, hret, hdrop, rfl, ?ctx, fun r hr hres => ?registers⟩
  case ctx => rw [hlr, nextLoc_eq_s32]
  case registers =>
    have pushed := getElem?_stack_of_bl called hr
    rw [← hstack, ← hcfg] at pushed
    rw [← hcfg] at hr hres
    rw [restored, if_pos ⟨hr, hres⟩, List.getD_eq_getElem?_getD, pushed, State.lateValue_eq]
    rfl

/-- Settles O25: a further frame fits below the quotient exactly. -/
theorem callDepthLimit : Obligations.CallDepthLimit := by
  intro s k depth hdepth hs
  rw [exec_bl_running_iff hs, hdepth, Config.frameWords, ← Nat.succ_mul, ← Nat.le_div_iff_mul_le (Nat.succ_pos _),
    Nat.succ_le_iff]

/-- Settles O48: a fault leaves the stack, and the commit leaves it as the completion does. -/
theorem onlyCallAndReturnTouchTheStack : Obligations.OnlyCallAndReturnTouchTheStack := by
  intro s u h
  rcases step_cases h with ⟨f, rfl⟩ | ⟨t, fe, wb, ht, -, -, rfl⟩
  · exact .inl rfl
  · rw [commitCycle_stack]
    rcases ht.stack_cases with same | ⟨hbl, hdrop, hlen, -⟩ | hret
    · exact .inl same
    · exact .inr (.inl ⟨hbl, hdrop, hlen⟩)
    · exact .inr (.inr hret)

/-- Settles O54: the record in Execute carries Fetch's prediction, which is "taken" for BU and BL. -/
theorem predictedJumpsNeverRedirect : Obligations.PredictedJumpsNeverRedirect := by
  intro s u hI h hu hi
  obtain ⟨t, fe, wb, ht, -, -, rfl⟩ := step_cases_of_notFaulted h hu
  have predicted : s.executing.predTaken = true := by
    rw [hI.predicted_executing]
    rcases hi with hi | hi <;> rw [hi] <;> rfl
  rw [commitCycle_ctx, ht.ctx_of_predicted_jump hi predicted]
  rfl

/-- Settles O19, by the prediction. -/
theorem branchUnconditionalResult : Obligations.BranchUnconditionalResult := fun _ _ =>
  ⟨⟨rfl, rfl, rfl, rfl⟩, congrArg _ (State.takeUnlessPredicted_eq _ _ _), writeback_none rfl⟩

/-- Settles O20, by whether the frame fits. -/
theorem branchLinkResult : Obligations.BranchLinkResult := by
  intro s imm loc link frame t
  refine ⟨⟨rfl, rfl, rfl, rfl⟩, writeback_none rfl, fun fits => ?exec, State.faults_bl_overflow⟩
  case exec =>
    refine (execBl_ok fits).trans ?_
    rw [State.takeUnlessPredicted_eq, pushRegs_lateValue, nextLoc_eq_s32]
    rfl

/-- Settles O22, condition by condition. -/
theorem conditionalBranchResults : Obligations.ConditionalBranchResults := by
  intro s a b imm ha hb x y row hrow
  simp only [List.mem_cons, List.not_mem_nil, or_false] at hrow
  rcases hrow with rfl | rfl | rfl | rfl <;>
    refine ⟨⟨rfl, rfl, rfl, rfl⟩, exec_of_condBranch rfl ha hb ?_, writeback_none rfl⟩
  · exact condEq_eq_decide _ _
  · exact condNe_eq_decide _ _
  · exact condLt_eq_decide _ _
  · exact condGt_eq_decide _ _

end Sys2Proof.Machine
end

section
/-!
The control instructions (R300, R302): a retired record, beside which EOP writes SVC, and neither writes at Writeback.
-/

namespace Sys2Proof.Machine

section
variable (s : State) (imm : Imm16)

/-- R300 -/
theorem exec_nop : exec (.nop imm) s = .next (s.computed (.nop imm) 0) :=
  rfl

/-- R302 -/
theorem exec_eop : exec (.eop imm) s = .next { s.branched (.eop imm) with svc := s.cfg.svcEop } :=
  rfl

end

/-- Settles O15: NOP retires with the value 0 and is not among the instructions that write at Writeback. -/
theorem nopResult : Obligations.NopResult := fun s imm =>
  ⟨⟨rfl, rfl, rfl, rfl⟩, exec_nop s imm, writeback_none rfl⟩

/-- Settles O23: EOP retires as a branch that keeps CTX reset, and writes nothing but SVC. -/
theorem endOfProgramResult : Obligations.EndOfProgramResult := fun s imm =>
  ⟨⟨rfl, rfl, rfl, rfl⟩, exec_eop s imm, writeback_none rfl⟩

end Sys2Proof.Machine
end

section
/-!
Exceptions: of the faults of one cycle's stages the one it reports (R335), and the state a fault leaves (R340).
-/

namespace Sys2Proof.Machine

section
variable {s : State}

/-! ### The faults of the stages -/

/-- The fault a stage raises, if any: the statement's `err`, by name. -/
def faultOf {α : Type} : Except FaultInfo α → Option FaultInfo
  | .error f => some f
  | .ok _ => none

@[simp] theorem faultOf_error {α : Type} (f : FaultInfo) : faultOf (.error f : Except FaultInfo α) = some f := rfl
@[simp] theorem faultOf_ok {α : Type} (a : α) : faultOf (.ok a : Except FaultInfo α) = none := rfl

/-- The faults of the stages in front of Execute, in stage order; a held front end runs none of them (R152). -/
def frontFaults (s : State) : List (Option FaultInfo) :=
  if s.isReady then [faultOf (fetch s), faultOf (decodeStage s), faultOf (issue s)] else []

/-- Behind a good fetch and a good decode, the front end faults exactly where Issue does. -/
theorem frontEnd_issue {a : FetchLatch × Word} {d : Record} (hr : s.isReady = true) (hf : fetch s = .ok a)
    (hd : decodeStage s = .ok d) : frontEnd s = (issue s).map fun q => ⟨a.1, d, [q], a.2⟩ := by
  simp only [frontEnd, hr, hf, hd]
  rfl

/-- The front end's fault is the first of its stages' (R335). -/
theorem faultOf_frontEnd (s : State) : faultOf (frontEnd s) = (frontFaults s).findSome? id := by
  cases hr : s.isReady with
  | false => simp [frontFaults, hr, frontEnd_held hr]
  | true =>
    cases hf : fetch s with
    | error f => simp [frontFaults, hr, hf, frontEnd_fetch_error hr hf]
    | ok a =>
      cases hd : decodeStage s with
      | error f => simp [frontFaults, hr, hf, hd, frontEnd_decode_error hr hf hd]
      | ok d => cases hq : issue s <;> simp [frontFaults, hr, hf, hd, hq, frontEnd_issue hr hf hd, Except.map]

/-! ### The end of the cycle -/

/-- The fault a cycle ends with: the front end's, else Execute's, else Writeback's (R335). -/
theorem endOfCycle_raised (s t : State) :
    (endOfCycle s t).raised = (faultOf (frontEnd s)).or ([t.raised, faultOf (writeback s)].findSome? id) := by
  cases hf : frontEnd s with
  | error f => simp [endOfCycle, hf]
  | ok fe =>
    cases hr : t.raised with
    | some f => simp [endOfCycle, hf, hr]
    | none =>
      cases hw : writeback s with
      | error f => simp [endOfCycle, hf, hr, hw]
      | ok wb =>
        rw [endOfCycle_commit hf hr hw]
        exact commitCycle_notFaulted _ fe wb

/-- No cycle runs from a core that stands at a fault (R66, R342). -/
theorem step_ne_next_of_faulted {f : FaultInfo} (h : s.status = .faulted f) (v : State) : step s ≠ .next v := by
  intro hv
  cases h.symm.trans (step_next_iff.1 ⟨v, hv⟩)

end

/-- Settles O40: a cycle takes a fault from its start or commits, and a commit leaves no fault. -/
theorem faultVoidsTheCycle : Obligations.FaultVoidsTheCycle := by
  intro s u f h hu
  refine ⟨?_, step_ne_next_of_faulted hu⟩
  rcases step_cases h with ⟨g, rfl⟩ | ⟨t, fe, wb, -, -, -, rfl⟩
  · cases hu
    rfl
  · cases (commitCycle_notFaulted s.executing.instr fe wb).symm.trans ((State.raised_eq_some _ f).2 hu)

/-- Settles O41: the front end's first fault comes before Execute's, and Execute's before Writeback's. -/
theorem firstStageFaultIsReported : Obligations.FirstStageFaultIsReported := by
  intro s t u hs he h
  obtain rfl : endOfCycle s t = u := Host.Outcome.next.inj ((step_eq hs he).symm.trans h)
  change _ = (frontFaults s ++ [t.raised, faultOf (writeback s)]).findSome? id
  rw [endOfCycle_raised, faultOf_frontEnd, List.findSome?_append]

end Sys2Proof.Machine
end

section
/-!
The pipeline's architectural state against the interpreter's: the registers with Writeback's write in them, and one
instruction in Execute against the same instruction in program order (R161, R172, R396).
-/

namespace Sys2Proof.Machine

/-! ### The architectural state -/

section
variable {s t : State} {i : Instr} {wb : Option (RegIdx × Word)}

/-- Writeback reads the record in EW and the parameters only. -/
theorem writeback_congr (hew : t.ew = s.ew) (hcfg : t.cfg = s.cfg) : writeback t = writeback s := by
  simp only [writeback, State.checkReg, hew, hcfg]

/-- The architectural registers are the file with Writeback's write, if it has one, in it. -/
theorem State.arch_x (hw : writeback s = .ok wb) (pc : Word) :
    (s.arch pc).x =
      if s.ew.instr.wbWrites then writeReg s.regs s.ew.instr.dest.toNat s.ew.wbValue else s.regs := by
  rcases writeback_ok_cases hw with ⟨hww, rfl⟩ | ⟨hww, -, -, rfl⟩ <;> simp [State.arch, hw, hww]

/-- The operand Execute uses is what the architectural register holds (R161). -/
theorem State.readReg_arch (hw : writeback s = .ok wb) (pc : Word) (r : RegIdx) :
    readReg (s.arch pc).x r.toNat = s.operand r := by
  rw [State.arch_x hw]
  split
  next hww => exact readReg_writeReg_dest hww
  next hww => exact (State.operand_of_no_write (Bool.not_eq_true _ ▸ hww)).symm

theorem State.reg_arch (hw : writeback s = .ok wb) (pc : Word) {r : RegIdx} (hr : r.toNat < s.cfg.numGpr) :
    (s.arch pc).reg s.cfg r = some (s.operand r) := by
  rw [Arch.reg, if_pos hr, State.readReg_arch hw]

/-! ### What a commit leaves of it -/

/-- Unless RET executes, the commit leaves the registers with Writeback's write in them. -/
theorem commitRegs_eq_arch (hw : writeback s = .ok wb) (hi : i.mnem ≠ .RET) (pc : Word) :
    commitRegs s.cfg i s.regs wb = (s.arch pc).x := by
  have notRestored (d : RegIdx) : executeWrites s.cfg i d = false := by
    simp [executeWrites, hi]
  rw [State.arch_x hw]
  rcases writeback_ok_cases hw with ⟨hww, rfl⟩ | ⟨hww, -, -, rfl⟩ <;> simp [commitRegs, hww, notRestored]

/-- RET restores the same registers whether Writeback's write has gone in before it or not, and where it restores none
that write remains (R172). -/
theorem commitRegs_popRegs (hw : writeback s = .ok wb) (hn : s.cfg.numGpr ≤ 16) (imm : Imm16) {st : List Word}
    (hl : s.cfg.numGpr ≤ st.length) (pc : Word) :
    commitRegs s.cfg (.ret imm) (popRegs s.cfg.reservedReg s.cfg.numGpr st s.regs).1 wb =
      (popRegs s.cfg.reservedReg s.cfg.numGpr st (s.arch pc).x).1 := by
  refine regs_ext _ _ fun n hlt => ?_
  obtain ⟨r, rfl⟩ : ∃ r : RegIdx, r.toNat = n := ⟨BitVec.ofNat 4 n, by simp; omega⟩
  obtain ⟨-, fromFile⟩ := popRegs_spec s.cfg.reservedReg s.cfg.numGpr st s.regs hn hl
  obtain ⟨-, fromArch⟩ := popRegs_spec s.cfg.reservedReg s.cfg.numGpr st (s.arch pc).x hn hl
  rw [readReg_commitRegs hn hw, fromFile, fromArch, State.readReg_arch hw, State.operand]
  have restored : executeWrites s.cfg (.ret imm) r = true ↔
      r.toNat < s.cfg.numGpr ∧ r.toNat ≠ s.cfg.reservedReg := by
    simp [executeWrites_iff, Instr.mnem]
  by_cases hr : r.toNat < s.cfg.numGpr ∧ r.toNat ≠ s.cfg.reservedReg
  · rw [if_pos (restored.2 hr), if_pos hr, if_pos hr]
  · rw [if_neg (mt restored.1 hr), if_neg hr, if_neg hr]

/-- The architectural state after a commit, the write of the record Execute retired included. -/
theorem arch_commitCycle {wb' : Option (RegIdx × Word)} (hw' : writeback t = .ok wb') (fe : FrontEnd) (pc : Word) :
    (commitCycle t i fe wb).arch pc =
      { x :=
          if t.ew.instr.wbWrites then
            writeReg (commitRegs t.cfg i t.regs wb) t.ew.instr.dest.toNat t.ew.wbValue
          else commitRegs t.cfg i t.regs wb
        pc := pc, lr := t.lr, mar := t.mar, mdr := t.mdr, svc := t.svc, mem := t.mem, stack := t.stack } := by
  have hw : writeback (commitCycle t i fe wb) = .ok wb' :=
    (writeback_congr (commitCycle_ew ..) (commitCycle_cfg ..)).trans hw'
  have hx := State.arch_x hw pc
  rw [commitCycle_ew, commitCycle_regs] at hx
  rw [← hx]
  simp [State.arch]

end

end Sys2Proof.Machine
end

section
/-!
One instruction in Execute against the same instruction in program order (R396): `Simulates`, instruction by
instruction.
-/

namespace Sys2Proof.Machine

/-- Where program order goes after `i` at `loc`, as Execute left it in CTX: the target of the redirect, else where
Fetch went after `i` (R146, R170). -/
def State.resolvedPc (t : State) (i : Instr) (loc : Word) : Word :=
  if t.ctx.branchTaken then t.ctx.branchTarget else shadowPc i.mnem loc i.imm

/-- The interpreter executes `i` from the architectural state of `s` and leaves that of the cycle `t` commits. -/
def Simulates (s t : State) (i : Instr) (fe : FrontEnd) (wb : Option (RegIdx × Word)) : Prop :=
  Arch.exec s.cfg i (s.arch s.executing.fetchLoc) =
    some ((commitCycle t i fe wb).arch (t.resolvedPc i s.executing.fetchLoc))

/-! ### Where Fetch went -/

theorem predict_of_unit {m : Mnem} (h : m.unit ≠ .BRU) (imm : Word) : predict m imm = false := by
  cases m with
  | BU | BL | RET | BEQ | BNE | BLT | BGT | EOP => exact absurd rfl h
  | _ => rfl

theorem shadowPc_of_not_predicted {m : Mnem} {imm : Word} (h : predict m imm = false) (loc : Word) :
    shadowPc m loc imm = nextLoc loc := by
  simp [shadowPc, h, nextLoc]

theorem shadowPc_of_predicted {m : Mnem} {imm : Word} (h : predict m imm = true) (hr : m.isPcRelative = true)
    (loc : Word) : shadowPc m loc imm = loc + imm := by
  simp [shadowPc, h, hr]

theorem State.resolvedPc_continued {t : State} (h : t.ctx.branchTaken = false) (i : Instr) (loc : Word) :
    t.resolvedPc i loc = shadowPc i.mnem loc i.imm := by
  simp [State.resolvedPc, h]

/-! ### An operand register of an instruction that does not fault exists -/

section
variable {s t : State} {i : Instr}

theorem not_faults_of_exec {kind : FaultKind} {value : FaultValue} (he : exec i s = .next t) (ht : t.raised = none) :
    ¬s.Faults i kind value := by
  intro hf
  cases he.symm.trans hf
  cases ht

theorem src1_exists (he : exec i s = .next t) (ht : t.raised = none) (hi : issueReads i ≠ .none) :
    i.src1.toNat < s.cfg.numGpr :=
  Nat.lt_of_not_le fun h => not_faults_of_exec he ht (exec_missing_src1 hi h)

theorem src2_exists (he : exec i s = .next t) (ht : t.raised = none) (hi : issueReads i = .both) :
    i.src2.toNat < s.cfg.numGpr :=
  Nat.lt_of_not_le fun h =>
    not_faults_of_exec he ht (exec_missing_src2 hi (src1_exists he ht (by simp [hi])) h)

theorem base_exists (he : exec i s = .next t) (ht : t.raised = none) (hi : i.mnem = .ST)
    (hr : issueReads i ≠ .none) : i.dest.toNat < s.cfg.numGpr :=
  Nat.lt_of_not_le fun h => not_faults_of_exec he ht (exec_missing_base hi (src1_exists he ht hr) h)

end

/-! ### The shapes -/

section
variable {s t : State} {i : Instr} {fe : FrontEnd} {wb wb' : Option (RegIdx × Word)}

/-- An instruction with a value for Writeback: the interpreter writes it at once. -/
theorem setReg_eq_arch (hw : writeback s = .ok wb) (hw' : writeback t = .ok wb') {v mar mdr : Word}
    (ht : t = { s.retire i v with mar := mar, mdr := mdr }) (hi : i.wbWrites = true) (loc : Word) :
    Arch.setReg s.cfg { s.arch loc with mar := mar, mdr := mdr } i.dest v =
      some ((commitCycle t i fe wb).arch (t.resolvedPc i loc)) := by
  subst ht
  obtain ⟨hunit, -, -⟩ := i.wbWrites_iff.1 hi
  have notRet : i.mnem ≠ .RET := fun h => hunit (by rw [Instr.unit, h]; rfl)
  rcases writeback_ok_cases hw' with ⟨hno, -⟩ | ⟨-, hres, hd, -⟩
  · cases hi.symm.trans hno
  have writes : ¬(i.dest.toNat = s.cfg.reservedReg ∨ s.cfg.numGpr ≤ i.dest.toNat) :=
    not_or.2 ⟨hres, Nat.not_le.2 hd⟩
  rw [Arch.setReg, if_neg writes, arch_commitCycle hw', State.resolvedPc_continued rfl,
    shadowPc_of_not_predicted (predict_of_unit hunit _)]
  simp only [State.retire_ew, State.retire_cfg, State.retire_regs, hi, if_true, commitRegs_eq_arch hw notRet loc]
  rfl

/-- An instruction with none, RET apart: the registers are those before it. -/
theorem simulates_of_no_write (hw : writeback s = .ok wb) (hcfg : t.cfg = s.cfg) (hregs : t.regs = s.regs)
    (hew : t.ew.instr = i) (hi : i.wbWrites = false) (hret : i.mnem ≠ .RET)
    (hs : Arch.exec s.cfg i (s.arch s.executing.fetchLoc) = some
      { x := (s.arch s.executing.fetchLoc).x, pc := t.resolvedPc i s.executing.fetchLoc, lr := t.lr, mar := t.mar
        mdr := t.mdr, svc := t.svc, mem := t.mem, stack := t.stack }) : Simulates s t i fe wb := by
  have hno : t.ew.instr.wbWrites = false := hew ▸ hi
  rw [Simulates, hs, arch_commitCycle (writeback_none hno), hno, hcfg, hregs,
    commitRegs_eq_arch hw hret s.executing.fetchLoc]
  rfl

/-- ALU instructions of two registers. -/
theorem simulates_alu2 (hw : writeback s = .ok wb) (hw' : writeback t = .ok wb') (he : exec i s = .next t)
    (ht : t.raised = none) {f : Word → Word → Word} (hx : exec i s = aluRegReg i i.src1 i.src2 f s)
    (hi : i.wbWrites = true) (hr : issueReads i = .both)
    (hs : ∀ a, Arch.exec s.cfg i a = a.alu2 s.cfg i.dest i.src1 i.src2 fun u v => some (f u v)) :
    Simulates s t i fe wb := by
  have h1 := src1_exists he ht (by simp [hr])
  have h2 := src2_exists he ht hr
  cases he.symm.trans (hx.trans (aluRegReg_ok i f h1 h2))
  rw [Simulates, hs, Arch.alu2, State.reg_arch hw _ h1, State.reg_arch hw _ h2]
  exact setReg_eq_arch hw hw' rfl hi _

/-- ALU instructions of one register, and MOVR. -/
theorem simulates_alu1 (hw : writeback s = .ok wb) (hw' : writeback t = .ok wb') (he : exec i s = .next t)
    (ht : t.raised = none) {f : Word → Word}
    (hx : i.src1.toNat < s.cfg.numGpr → exec i s = .next (s.retire i (f (s.operand i.src1))))
    (hi : i.wbWrites = true) (hr : issueReads i ≠ .none)
    (hs : ∀ a, Arch.exec s.cfg i a = a.alu1 s.cfg i.dest i.src1 f) : Simulates s t i fe wb := by
  have h1 := src1_exists he ht hr
  cases he.symm.trans (hx h1)
  rw [Simulates, hs, Arch.alu1, State.reg_arch hw _ h1]
  exact setReg_eq_arch hw hw' rfl hi _

/-- R277: taken as predicted, program order is where Fetch went; else it is the target of the redirect. -/
theorem simulates_condBranch (hw : writeback s = .ok wb) (he : exec i s = .next t) (ht : t.raised = none)
    (hp : s.executing.predTaken = predict i.mnem i.imm) {k : Imm16} {cond : Word → Word → Bool}
    (hx : exec i s = condBranch i i.src1 i.src2 k cond s) (hi : i.mnem.isCondBranch = true)
    (hr : issueReads i = .both) (hk : i.imm = sext16 k)
    (hs : ∀ a, Arch.exec s.cfg i a = a.branchIf s.cfg i.src1 i.src2 k cond) : Simulates s t i fe wb := by
  have h1 := src1_exists he ht (by simp [hr])
  have h2 := src2_exists he ht hr
  have hunit : i.unit = .BRU := Mnem.unit_of_isCondBranch hi
  have noWrite : i.wbWrites = false := Bool.eq_false_iff.2 fun h => (i.wbWrites_iff.1 h).1 hunit
  have notRet : i.mnem ≠ .RET := fun h => by rw [h] at hi; cases hi
  have relative : i.mnem.isPcRelative = true := by
    revert hi; cases i.mnem <;> decide
  have hseq : Arch.exec s.cfg i (s.arch s.executing.fetchLoc) = some
      { s.arch s.executing.fetchLoc with
        pc := if cond (s.operand i.src1) (s.operand i.src2) then branchTarget s.executing.fetchLoc k
          else nextLoc s.executing.fetchLoc } := by
    rw [hs, Arch.branchIf, State.reg_arch hw _ h1, State.reg_arch hw _ h2]
    rfl
  have hx := he.symm.trans (hx.trans (condBranch_ok i k cond h1 h2))
  split at hx
  next asPredicted =>
    cases hx
    have goes : shadowPc i.mnem s.executing.fetchLoc i.imm =
        if cond (s.operand i.src1) (s.operand i.src2) then branchTarget s.executing.fetchLoc k
        else nextLoc s.executing.fetchLoc := by
      rw [asPredicted, hp]
      split
      next taken => rw [shadowPc_of_predicted taken relative, hk]; rfl
      next notTaken => exact shadowPc_of_not_predicted (Bool.not_eq_true _ ▸ notTaken) _
    refine simulates_of_no_write hw rfl rfl rfl noWrite notRet ?_
    rw [hseq, State.resolvedPc_continued rfl, goes]
    rfl
  next =>
    cases hx
    exact simulates_of_no_write hw rfl rfl rfl noWrite notRet hseq

/-! ### The instructions with a shape of their own -/

theorem simulates_div (hw : writeback s = .ok wb) (hw' : writeback t = .ok wb') {d a b : RegIdx}
    (he : exec (.div d a b) s = .next t) (ht : t.raised = none) : Simulates s t (.div d a b) fe wb := by
  have h1 : a.toNat < s.cfg.numGpr := src1_exists he ht nofun
  have h2 : b.toNat < s.cfg.numGpr := src2_exists he ht rfl
  have hx := he.symm.trans (execDiv_ok s h1 h2)
  split at hx
  next => cases hx; cases ht
  next h0 =>
    cases hx
    rw [Simulates, Arch.exec, Arch.alu2, State.reg_arch hw _ h1, State.reg_arch hw _ h2]
    simp only [Option.bind_eq_bind, Option.bind_some, if_neg h0]
    exact setReg_eq_arch hw hw' rfl rfl _

theorem simulates_ld (hw : writeback s = .ok wb) (hw' : writeback t = .ok wb') {d b : RegIdx} {k : Imm16}
    (he : exec (.ld d b k) s = .next t) (ht : t.raised = none) : Simulates s t (.ld d b k) fe wb := by
  have hb : b.toNat < s.cfg.numGpr := src1_exists he ht nofun
  cases hin : s.cfg.inRange (effectiveAddress (s.operand b) k)
  case false => cases he.symm.trans (execLd_out s hb rfl hin); cases ht
  case true =>
    cases he.symm.trans (execLd_ok s hb rfl hin)
    rw [Simulates, Arch.exec, State.reg_arch hw _ hb]
    simp only [Option.bind_eq_bind, Option.bind_some, hin, if_true]
    exact setReg_eq_arch hw hw' rfl rfl _

theorem simulates_st (hw : writeback s = .ok wb) (hsbf : s.cfg.storeBaseForward = true) {b v : RegIdx} {k : Imm16}
    (he : exec (.st b v k) s = .next t) (ht : t.raised = none) : Simulates s t (.st b v k) fe wb := by
  have hv : v.toNat < s.cfg.numGpr := src1_exists he ht nofun
  have hb : b.toNat < s.cfg.numGpr := base_exists he ht rfl nofun
  have late : s.lateOperand b = s.operand b := by simp [State.lateOperand, hsbf]
  cases hin : s.cfg.inRange (effectiveAddress (s.operand b) k)
  case false => cases he.symm.trans (execSt_out s hv hb (late ▸ rfl) hin); cases ht
  case true =>
    cases he.symm.trans (execSt_ok s hv hb (late ▸ rfl) hin)
    refine simulates_of_no_write hw rfl rfl rfl rfl nofun ?_
    rw [Arch.exec, State.reg_arch hw _ hv, State.reg_arch hw _ hb]
    simp only [Option.bind_eq_bind, Option.bind_some, hin, if_true]
    rfl

theorem simulates_bu (hw : writeback s = .ok wb) {k : Imm16} (he : exec (.bu k) s = .next t)
    (hp : s.executing.predTaken = true) : Simulates s t (.bu k) fe wb := by
  cases he
  rw [State.takeUnlessPredicted, if_pos hp]
  exact simulates_of_no_write hw rfl rfl rfl rfl nofun rfl

/-- What BL pushes is the architectural registers (R159, R274). -/
theorem pushRegs_lateValue_eq_arch (hw : writeback s = .ok wb) (hsbf : s.cfg.storeBaseForward = true) {n : Nat}
    (hn : n ≤ 16) (st : List Word) (loc : Word) :
    pushRegs (fun r => s.lateValue (BitVec.ofNat 4 r)) n st = pushRegs (readReg (s.arch loc).x) n st := by
  rw [pushRegs_eq, pushRegs_eq]
  refine congrArg (fun frame => List.reverse frame ++ st) (List.map_congr_left fun r hr => ?_)
  have hr : (BitVec.ofNat 4 r).toNat = r := by
    have := List.mem_range.1 hr
    simp; omega
  rw [State.lateValue_forwarded hsbf, ← State.readReg_arch hw loc, hr]

theorem simulates_bl (hw : writeback s = .ok wb) (hsbf : s.cfg.storeBaseForward = true) (hn : s.cfg.numGpr ≤ 16)
    {k : Imm16} (he : exec (.bl k) s = .next t) (ht : t.raised = none) (hp : s.executing.predTaken = true) :
    Simulates s t (.bl k) fe wb := by
  have fits : s.stack.length + s.cfg.frameWords ≤ s.cfg.stackWords :=
    Nat.le_of_not_lt fun h => not_faults_of_exec he ht (State.faults_bl_overflow h)
  cases he.symm.trans (execBl_ok fits)
  rw [State.takeUnlessPredicted, if_pos hp, pushRegs_lateValue_eq_arch hw hsbf hn _ s.executing.fetchLoc]
  exact simulates_of_no_write hw rfl rfl rfl rfl nofun (if_neg (Nat.not_lt.2 fits))

theorem simulates_ret (hw : writeback s = .ok wb) (hn : s.cfg.numGpr ≤ 16) {k : Imm16}
    (he : exec (.ret k) s = .next t) (ht : t.raised = none) : Simulates s t (.ret k) fe wb := by
  have holds : s.cfg.frameWords ≤ s.stack.length :=
    Nat.le_of_not_lt fun h => not_faults_of_exec he ht (State.faults_ret_underflow h)
  have frame : s.cfg.numGpr ≤ s.stack.tail.length := by
    simp only [Config.frameWords] at holds; simp; omega
  rw [exec, execRet, if_neg (Nat.not_lt.2 holds)] at he
  cases he
  refine (if_neg (Nat.not_lt.2 holds)).trans ?_
  rw [arch_commitCycle (writeback_none rfl)]
  simp only [State.redirect_ew, State.redirect_cfg, State.redirect_regs, State.retireBranch_cfg,
    commitRegs_popRegs hw hn k frame s.executing.fetchLoc, popRegs_stack]
  rfl

/-! ### Every instruction -/

/-- In Execute an instruction does to the architectural state what the interpreter does, and leaves for the end of the
cycle the address the interpreter goes to (R161, R396). -/
theorem exec_simulates (hn : s.cfg.numGpr ≤ 16) (hsbf : s.cfg.storeBaseForward = true) (hw : writeback s = .ok wb)
    (he : exec i s = .next t) (ht : t.raised = none) (hp : s.executing.predTaken = predict i.mnem i.imm)
    (hw' : writeback t = .ok wb') : Simulates s t i fe wb := by
  cases i with
  | add d a b | sub d a b | mul d a b | and d a b | or d a b | xor d a b | sllv d a b =>
    exact simulates_alu2 hw hw' he ht rfl rfl rfl fun _ => rfl
  | not d a | sll d a k | srl d a k | sra d a k | addi d a k =>
    exact simulates_alu1 hw hw' he ht (aluReg_ok _ _) rfl nofun fun _ => rfl
  | movr d a => exact simulates_alu1 hw hw' he ht (execMovr_ok s) rfl nofun fun _ => rfl
  | movi d k => cases he; exact setReg_eq_arch hw hw' rfl rfl _
  | nop k | eop k => cases he; exact simulates_of_no_write hw rfl rfl rfl rfl nofun rfl
  | div d a b => exact simulates_div hw hw' he ht
  | ld d b k => exact simulates_ld hw hw' he ht
  | st b v k => exact simulates_st hw hsbf he ht
  | bu k => exact simulates_bu hw he hp
  | bl k => exact simulates_bl hw hsbf hn he ht hp
  | ret k => exact simulates_ret hw hn he ht
  | beq a b k | bne a b k | blt a b k | bgt a b k =>
    exact simulates_condBranch hw he ht hp rfl rfl rfl rfl fun _ => rfl

end

end Sys2Proof.Machine
end

section
/-!
The front end on the path of the program (R140, R146, R171, R383, R396): what a cycle does to `OnPath`, with a bubble
in Execute, with the program's instruction, and with a redirect; and the one-cycle simulation.
-/

namespace Sys2Proof.Machine

/-! ### Instructions and words on the path -/

section
variable {c : Config} {m m' : Memory} {loc : Word}

theorem followOn_eq_shadowPc {e : Encoding} {i : Instr} (h : decode e (m.read loc.toNat) = .ok i) :
    followOn e m loc = shadowPc i.mnem loc i.imm := by
  obtain ⟨hm, -, hread⟩ := decode_ok_cases h
  have himm := imm_read e (m.read loc.toNat) i.mnem
  rw [hread] at himm
  simp [followOn, hm, himm]

theorem followOn_congr (e : Encoding) (h : m'.read loc.toNat = m.read loc.toNat) :
    followOn e m' loc = followOn e m loc := by
  simp only [followOn, h]

theorem Record.Holds.congr {r : Record} (h : Record.Holds c m loc r) (hm : m'.read loc.toNat = m.read loc.toNat) :
    Record.Holds c m' loc r := by
  rwa [Record.Holds, hm]

theorem FetchLatch.Holds.congr {f : FetchLatch} (h : FetchLatch.Holds c m loc f)
    (hm : m'.read loc.toNat = m.read loc.toNat) : FetchLatch.Holds c m' loc f := by
  rwa [FetchLatch.Holds, hm]

end

/-! ### The stages hand on what they hold -/

section
variable {s : State}

theorem holds_of_fetch {f : FetchLatch × Word} (h : fetch s = .ok f) :
    FetchLatch.Holds s.cfg s.mem s.pc f.1 ∧ f.2 = followOn s.cfg.encoding s.mem s.pc := by
  obtain ⟨hin, hword, hloc, m, hm, hp, hspc⟩ := fetch_ok_cases h
  refine ⟨⟨hin, hword, hloc, m, hm, hp⟩, ?_⟩
  rw [hword] at hm hspc
  simp [followOn, hm, hspc]

theorem holds_of_decodeStage {m : Memory} {loc : Word} {d : Record} (h : decodeStage s = .ok d)
    (hfd : FetchLatch.Holds s.cfg m loc s.fd) : Record.Holds s.cfg m loc d := by
  obtain ⟨hin, hword, hloc, hlegal⟩ := hfd
  obtain ⟨hd, hrec⟩ := decodeStage_ok_cases h
  exact ⟨hin, hword ▸ hd, by rw [hrec, hloc], predicted_of_decodeStage hlegal h⟩

theorem holds_of_issue {m : Memory} {loc : Word} {q : Record} (h : issue s = .ok q)
    (hdi : Record.Holds s.cfg m loc s.di) : Record.Holds s.cfg m loc q := by
  obtain ⟨hin, hd, hloc, hpred⟩ := hdi
  obtain ⟨hqi, hql, hqp, -⟩ := issue_ok_cases h
  exact ⟨hin, hqi ▸ hd, hql.trans hloc, by rw [Record.Predicted, hqp, hqi]; exact hpred⟩

/-- A flushed FD decodes to the default no-op (R60, R61). -/
theorem nop_of_decodeStage {d : Record} (he : s.cfg.encoding.wf = true) (h : decodeStage s = .ok d)
    (hfd : s.fd = FetchLatch.flushed) : d = Record.nop := by
  have decodes : decode s.cfg.encoding s.fd.word = .ok (.nop 0) := by rw [hfd]; exact decode_zero he
  cases h.symm.trans (decodeStage_ok decodes)
  rw [hfd]
  rfl

theorem nop_of_issue {q : Record} (h : issue s = .ok q) (hdi : s.di = Record.nop) : q = Record.nop := by
  cases h.symm.trans (issue_none (by rw [hdi]; rfl))
  rw [hdi]
  rfl

end

/-! ### A cycle that neither holds nor redirects -/

/-- Every latch takes what the stage in front of it produced from the start of the cycle (R140, R170). -/
structure Advances (s u : State) : Prop where
  cfg    : u.cfg = s.cfg
  fetch  : fetch s = .ok (u.fd, u.pc)
  decode : decodeStage s = .ok u.di
  issue  : issue s = .ok u.executing

section
variable {s t u : State} {loc : Word} {fe : FrontEnd} {wb : Option (RegIdx × Word)}

theorem advances_of_commitCycle (t : State) (hready : s.isReady = true) (hf : frontEnd s = .ok fe)
    (hcfg : t.cfg = s.cfg) (hb : t.ctx.branchTaken = false) (i : Instr) : Advances s (commitCycle t i fe wb) := by
  rcases frontEnd_ok_cases hf with ⟨-, f, d, q, hfetch, hdecode, hissue, rfl⟩ | ⟨hheld, -⟩
  · obtain ⟨hpc, hfd, hdi, hiq⟩ := commitCycle_continued i ⟨f.1, d, [q], f.2⟩ wb hb
    refine ⟨(commitCycle_cfg ..).trans hcfg, ?_, ?_, ?_⟩
    · rw [hpc, hfd]; exact hfetch
    · rw [hdi]; exact hdecode
    · rw [State.executing_cons _ q [] hiq]; exact hissue
  · cases hready.symm.trans hheld

/-- The instruction in DI comes to Execute with the two words behind it, where the cycle leaves all three words as they
were. -/
theorem Advances.onPath_zero (h : Advances s u) (hdi : Record.Holds s.cfg s.mem loc s.di)
    (hfd : FetchLatch.Holds s.cfg s.mem (followOn s.cfg.encoding s.mem loc) s.fd)
    (hpc : s.pc = followOn s.cfg.encoding s.mem (followOn s.cfg.encoding s.mem loc))
    (hmem : ∀ a, a = s.di.fetchLoc ∨ a = s.fd.fetchLoc ∨ a = s.pc → u.mem.read a.toNat = s.mem.read a.toNat) :
    OnPath u 0 loc := by
  have ⟨_, _, diLoc, _⟩ := hdi
  have ⟨_, _, fdLoc, _⟩ := hfd
  have same1 := hmem loc (.inl diLoc.symm)
  have same2 := hmem _ (.inr (.inl fdLoc.symm))
  have same3 := hmem s.pc (.inr (.inr rfl))
  obtain ⟨fetched, next⟩ := holds_of_fetch h.fetch
  have next1 := followOn_congr s.cfg.encoding same1
  have next2 := followOn_congr s.cfg.encoding same2
  have next3 := followOn_congr s.cfg.encoding same3
  rw [OnPath, h.cfg, next1, next2, ← hpc, next3]
  exact ⟨(holds_of_issue h.issue hdi).congr same1, (holds_of_decodeStage h.decode hfd).congr same2,
    fetched.congr same3, next⟩

/-- With a bubble in Execute and memory as it was, there is one bubble fewer ahead. -/
theorem Advances.onPath_bubble (h : Advances s u) (hmem : u.mem = s.mem) (he : s.cfg.encoding.wf = true)
    {bubbles : Nat} (hp : OnPath s (bubbles + 1) loc) : OnPath u bubbles loc := by
  match bubbles, hp with
  | 0, ⟨_, hdi, hfd, hpc⟩ => exact h.onPath_zero hdi hfd hpc fun _ _ => by rw [hmem]
  | 1, ⟨_, hdi, hfd, hpc⟩ =>
    obtain ⟨fetched, next⟩ := holds_of_fetch h.fetch
    rw [OnPath, h.cfg, hmem, ← hpc]
    exact ⟨nop_of_issue h.issue hdi, holds_of_decodeStage h.decode hfd, fetched, next⟩
  | 2, ⟨_, hdi, hfd, hpc⟩ =>
    obtain ⟨fetched, next⟩ := holds_of_fetch h.fetch
    rw [OnPath, h.cfg, hmem, ← hpc]
    exact ⟨nop_of_issue h.issue hdi, nop_of_decodeStage he h.decode hfd, fetched, next⟩

/-- After a redirect three bubbles are ahead of the target (R171). -/
theorem onPath_three_of_redirect (hb : t.ctx.branchTaken = true) (i : Instr) :
    OnPath (commitCycle t i fe wb) 3 t.ctx.branchTarget := by
  obtain ⟨hpc, hfd, hdi, hiq⟩ := commitCycle_redirected i fe wb hb
  exact ⟨State.executing_nil _ hiq, hdi, hfd, hpc⟩

theorem OnPath.executing_nop {bubbles : Nat} (h : OnPath s bubbles loc) (hb : bubbles ≠ 0) :
    s.executing = Record.nop := by
  match bubbles, h with
  | 1, ⟨hx, _⟩ | 2, ⟨hx, _⟩ | 3, ⟨hx, _⟩ => exact hx

/-! ### The cycle -/

/-- A cycle that did not fault, with what Execute answered. -/
theorem step_commit (h : step s = .next u) (hu : u.NotFaulted) :
    ∃ t fe wb, exec s.executing.instr s = .next t ∧ t.raised = none ∧ frontEnd s = .ok fe ∧
      writeback s = .ok wb ∧ u = commitCycle t s.executing.instr fe wb := by
  obtain ⟨-, t, he, ⟨f, rfl, -⟩ | ⟨fe, wb, hf, hr, hw, rfl⟩⟩ := step_next_cases h
  · cases hu
  · exact ⟨t, fe, wb, he, hr, hf, hw, rfl⟩

/-- A cycle with a bubble in Execute: the front end advances, and the architectural state stays, with Writeback's write
in the registers. -/
structure Bubble (s u : State) : Prop where
  advances    : Advances s u
  arch        : ∀ pc, u.arch pc = s.arch pc
  branchTaken : u.ctx.branchTaken = false

theorem bubble_of_step (hstub : s.cfg.isReadyStub = true) (hx : s.executing = Record.nop) (h : step s = .next u)
    (hu : u.NotFaulted) : Bubble s u := by
  obtain ⟨t, fe, wb, he, -, hf, hw, rfl⟩ := step_commit h hu
  rw [hx] at he ⊢
  cases he
  refine ⟨advances_of_commitCycle (s.retire (.nop 0) 0) (isReady_of_stub hstub) hf rfl rfl _, fun pc => ?_, by simp⟩
  rw [arch_commitCycle (wb' := none) (writeback_none rfl)]
  simp only [State.retire_cfg, State.retire_regs, commitRegs_eq_arch (i := Record.nop.instr) hw nofun pc]
  rfl

theorem Bubble.mem (h : Bubble s u) : u.mem = s.mem := congrArg Arch.mem (h.arch 0)

/-- With bubbles ahead, a cycle executes one of them, and one fewer is ahead. -/
theorem OnPath.bubble_step {bubbles : Nat} (hp : OnPath s (bubbles + 1) loc) (he : s.cfg.encoding.wf = true)
    (hstub : s.cfg.isReadyStub = true) (h : step s = .next u) (hu : u.NotFaulted) :
    s.executing = Record.nop ∧ Bubble s u ∧ OnPath u bubbles loc := by
  have hx := hp.executing_nop (Nat.succ_ne_zero _)
  have bubble := bubble_of_step hstub hx h hu
  exact ⟨hx, bubble, bubble.advances.onPath_bubble bubble.mem he hp⟩

/-- Where no store goes ahead, the three words ahead stay (R383). -/
theorem Completes.read_ahead (h : Completes s s.executing.instr t) (hwf : s.mem.wf) (hns : s.NoStoreAhead) (a : Word)
    (ha : a = s.di.fetchLoc ∨ a = s.fd.fetchLoc ∨ a = s.pc) : t.mem.read a.toNat = s.mem.read a.toNat := by
  by_contra hne
  obtain ⟨b, v, imm, hi, -, hea⟩ := h.store_of_read_ne hwf hne
  obtain rfl := BitVec.eq_of_toNat_eq hea
  obtain ⟨hdi, hfd, hpc⟩ := hns (effectiveAddress (s.lateOperand b) imm)
    (by simp [State.storeAddress, hi, State.lateValue_eq])
  rcases ha with ha | ha | ha
  exacts [hdi ha, hfd ha, hpc ha]

/-- While SVC does not say the program has ended, the interpreter executes the instruction at its address. -/
theorem Arch.step_arch {i : Instr} (hsvc : s.svc ≠ s.cfg.svcEop) (hin : s.cfg.inRange loc = true)
    (hd : decode s.cfg.encoding (s.mem.read loc.toNat) = .ok i) :
    Arch.step s.cfg (s.arch loc) = Arch.exec s.cfg i (s.arch loc) := by
  simp [Arch.step, State.arch, hsvc, hin, hd]

/-- The cycle that executes the program's instruction. -/
theorem tracks_of_executed (hn : s.cfg.numGpr ≤ 16) (hc : s.cfg.InOrder) (hwf : s.mem.wf)
    (hsvc : s.svc ≠ s.cfg.svcEop) (hns : s.NoStoreAhead) (hp : OnPath s 0 loc) (h : step s = .next u)
    (hu : u.NotFaulted) (hw : writeback u = .ok wb) :
    ∃ b, Arch.step s.cfg (s.arch loc) = some b ∧ Tracks u (if u.ctx.branchTaken then 3 else 0) b := by
  obtain ⟨⟨hin, hd, hloc, hpred⟩, hdi, hfd, hpc⟩ := hp
  obtain ⟨t, fe, wbs, he, hr, hf, hws, rfl⟩ := step_commit h hu
  have ht := completes_of_exec he hr
  obtain ⟨hcfg, -⟩ := ht.frame
  have hwt : writeback t = .ok wb := (writeback_congr (commitCycle_ew ..) (commitCycle_cfg ..)).symm.trans hw
  have sim : Simulates s t s.executing.instr fe wbs := exec_simulates hn hc.1 hws he hr hpred hwt
  rw [Simulates, hloc] at sim
  refine ⟨_, (Arch.step_arch hsvc hin hd).trans sim, rfl, ?_⟩
  change OnPath _ _ (t.resolvedPc s.executing.instr loc)
  rw [commitCycle_ctx]
  cases hb : t.ctx.branchTaken
  case true =>
    rw [State.resolvedPc, if_pos hb]
    exact onPath_three_of_redirect hb _
  case false =>
    rw [State.resolvedPc_continued hb, ← followOn_eq_shadowPc hd]
    refine (advances_of_commitCycle t (isReady_of_stub hc.2) hf hcfg hb _).onPath_zero hdi hfd hpc fun a ha => ?_
    rw [commitCycle_mem]
    exact ht.read_ahead hwf hns a ha

end

/-- Settles O56: the program's instruction in Execute is the interpreter's next, and a bubble changes nothing but the
number of bubbles ahead. -/
theorem cycleTracksProgramOrder : Obligations.CycleTracksProgramOrder := by
  intro s u bubbles a wb hc hio hwf hsvc hns htracks h hu hw
  obtain ⟨harch, hpath⟩ := htracks
  obtain ⟨hn, -, he⟩ := Config.wf_registers_encoding hc
  refine ⟨fun h0 => ?_, fun h0 => ?_⟩
  · subst h0
    obtain ⟨b, hb, tracked⟩ := tracks_of_executed hn hio hwf hsvc hns hpath h hu hw
    exact ⟨b, harch ▸ hb, tracked⟩
  · obtain ⟨n, rfl⟩ := Nat.exists_eq_succ_of_ne_zero h0
    obtain ⟨-, bubble, path⟩ := hpath.bubble_step he hio.2 h hu
    exact ⟨(bubble.arch a.pc).trans harch, path⟩

end Sys2Proof.Machine
end

section
/-!
Reset and image load (R360, R362, R73), EOP's cycle (R302, R366) and the bubbles after a redirect (R171, R391).
-/

namespace Sys2Proof.Machine

/-! ### Image load -/

/-- An image load from address 0 into empty memory: the canonical form, no address from the end of the image up, and
the image's words with 0 after them. -/
theorem loadFrom_empty (image : List Word) :
    let m := loadFrom { cells := [] } 0 image
    m.wf ∧ (∀ c ∈ m.cells, c.1 < image.length) ∧ ∀ a, m.read a = image.getD a 0 := by
  obtain ⟨hwf, hbound, hread⟩ :=
    loadFrom_spec image { cells := [] } 0 image.length ⟨.nil, nofun⟩ nofun (Nat.zero_add _).le
  refine ⟨hwf, hbound, fun a => ?_⟩
  rw [hread]
  split
  next => rfl
  next hout => rw [Memory.read_empty, List.getD_eq_default _ _ (by omega)]

theorem State.boot_fits {c : Config} {image : List Word} (h : image.length ≤ c.memWords) :
    State.boot c image = { State.resetWith c with mem := loadFrom { cells := [] } 0 image } :=
  if_pos h

theorem State.boot_too_long {c : Config} {image : List Word} (h : c.memWords < image.length) :
    State.boot c image =
      (State.resetWith c).takeFault ⟨.memoryFault, .load, .address c.memWords, none⟩ :=
  if_neg (Nat.not_le.2 h)

/-- Settles O50: an image that fits changes memory only. -/
theorem resetValues : Obligations.ResetValues := by
  intro c image fits
  obtain ⟨-, -, hread⟩ := loadFrom_empty image
  rw [State.boot_fits fits]
  exact ⟨readReg_replicate, rfl, rfl, rfl, rfl, rfl, rfl, rfl, rfl, rfl, rfl, rfl, rfl, rfl, rfl, hread, rfl⟩

/-- Settles O51, by whether the image fits. -/
theorem imageLoad : Obligations.ImageLoad := by
  intro c image
  refine ⟨fun fits => ?_, fun tooLong => ?_⟩
  · obtain ⟨hwf, -, hread⟩ := loadFrom_empty image
    exact ⟨_, State.boot_fits fits, hwf, hread⟩
  · rw [State.boot_too_long tooLong]
    exact ⟨⟨_, rfl, rfl, rfl, rfl⟩, step_ne_next_of_faulted rfl⟩

/-! ### Reset meets the invariant -/

/-- The reset values with any memory in canonical form and in range. -/
theorem inv_resetWith {c : Config} (hc : c.wf = true) {m : Memory} (hwf : m.wf)
    (hbound : ∀ cell ∈ m.cells, cell.1 < c.memWords) : Inv { State.resetWith c with mem := m } := by
  obtain ⟨-, -, he⟩ := Config.wf_registers_encoding hc
  obtain ⟨svcEop, maxCycles⟩ : c.svcEop ≠ 0 ∧ 1 ≤ c.maxCycles := by
    simp only [Config.wf, Bool.and_eq_true, decide_eq_true_eq, bne_iff_ne] at hc
    tauto
  exact {
    cfg := hc
    reservedZero := readReg_replicate _
    memForm := hwf
    memBound := hbound
    stackBound := Nat.zero_le _
    stackFrames := Nat.dvd_zero _
    queueOne := Nat.zero_le _
    queueReady := nofun
    srZero := rfl
    irLegal := legal_flushed he
    diFresh := ⟨rfl, rfl, rfl⟩
    diPredicted := predicted_nop
    ewPredicted := predicted_nop
    ctxTaken := nofun
    ctxCorrect := fun _ => rfl
    svcValue := .inl rfl
    running := fun _ => ⟨svcEop.symm, maxCycles⟩
    halted := nofun }

theorem inv_boot {c : Config} (hc : c.wf = true) (image : List Word) : Inv (State.boot c image) := by
  rcases Nat.lt_or_ge c.memWords image.length with tooLong | fits
  · rw [State.boot_too_long tooLong]
    exact (inv_resetWith hc (m := { cells := [] }) ⟨.nil, nofun⟩ nofun).takeFault _
  · obtain ⟨hwf, hbound, -⟩ := loadFrom_empty image
    rw [State.boot_fits fits]
    exact inv_resetWith hc hwf fun cell hcell => Nat.lt_of_lt_of_le (hbound cell hcell) fits

/-- Settles O52: the reset values meet every clause, with the image's memory in range or none loaded. -/
theorem resetMeetsTheInvariant : Obligations.ResetMeetsTheInvariant :=
  ⟨fun _ image hc => inv_boot hc image, inv_resetWith (c := {}) (by decide) ⟨.nil, nofun⟩ nofun⟩

/-! ### EOP's cycle -/

section
variable {s u : State} {imm : Imm16}

/-- EOP's cycle, if no stage faults, is the commit of its retired record with SVC set (R302). -/
theorem commit_of_eop (hx : s.executing.instr = .eop imm) (h : step s = .next u) (hu : u.NotFaulted) :
    ∃ fe wb, frontEnd s = .ok fe ∧ writeback s = .ok wb ∧
      u = commitCycle { s.branched (.eop imm) with svc := s.cfg.svcEop } (.eop imm) fe wb := by
  obtain ⟨t, fe, wb, he, -, hf, hw, rfl⟩ := step_commit h hu
  rw [hx] at he ⊢
  cases he.symm.trans (exec_eop s imm)
  exact ⟨fe, wb, hf, hw, rfl⟩

end

/-- Settles O45: EOP's completion leaves registers, memory and stack to the commit, which writes what Writeback
scheduled. -/
theorem eopHaltsAfterTheOlderCommit : Obligations.EopHaltsAfterTheOlderCommit := by
  intro s u imm hx h hu
  obtain ⟨fe, wb, hf, hw, rfl⟩ := commit_of_eop hx h hu
  refine ⟨?status, by simp, fun hww => ?commits, by simp [State.branched], by simp [State.branched],
    fun hready => ?queue⟩
  case status => rw [commitCycle_status]; exact if_pos rfl
  case commits =>
    have hregs := commitRegs_eq_arch (i := .eop imm) hw nofun 0
    rw [State.arch_x hw, if_pos hww] at hregs
    rw [commitCycle_regs]
    exact (congrArg (readReg · _) hregs).trans (by simp [s.ew.instr.dest.isLt])
  case queue =>
    rcases frontEnd_ok_cases hf with ⟨-, f, d, q, -, -, hissue, rfl⟩ | ⟨hheld, -⟩
    · obtain ⟨hq, -⟩ := issue_ok_cases hissue
      exact ⟨q, by simp [State.branched], hq⟩
    · cases hready.symm.trans hheld

/-! ### The bubbles after a redirect -/

section
variable {s u : State}

/-- A cycle that redirects and did not fault leaves three bubbles ahead of the target. -/
theorem onPath_of_redirect (h : step s = .next u) (hu : u.NotFaulted) (hb : u.ctx.branchTaken = true) :
    OnPath u 3 u.ctx.branchTarget := by
  obtain ⟨t, fe, wb, -, -, -, -, rfl⟩ := step_commit h hu
  rw [commitCycle_ctx] at hb ⊢
  exact onPath_three_of_redirect hb _

end

/-- Settles O55: three times one bubble fewer, and then the instruction at the target. -/
theorem redirectCostsThreeBubbles : Obligations.RedirectCostsThreeBubbles := by
  intro s u0 u1 u2 u3 hc hstub h0 hb h1 h2 h3 hu3
  obtain ⟨-, -, he⟩ := Config.wf_registers_encoding hc
  have hcfg0 := step_cfg h0
  have path0 := onPath_of_redirect h0 (notFaulted_of_step h1) hb
  obtain ⟨nop0, bubble0, path1⟩ := path0.bubble_step (hcfg0 ▸ he) (hcfg0 ▸ hstub) h1 (notFaulted_of_step h2)
  have hcfg1 := bubble0.advances.cfg.trans hcfg0
  obtain ⟨nop1, bubble1, path2⟩ := path1.bubble_step (hcfg1 ▸ he) (hcfg1 ▸ hstub) h2 (notFaulted_of_step h3)
  have hcfg2 := bubble1.advances.cfg.trans hcfg1
  obtain ⟨nop2, bubble2, ⟨-, hd, hloc, -⟩, -⟩ := path2.bubble_step (hcfg2 ▸ he) (hcfg2 ▸ hstub) h3 hu3
  rw [bubble2.advances.cfg.trans hcfg2, bubble2.mem, bubble1.mem, bubble0.mem] at hd
  exact ⟨nop0, nop1, nop2, hloc, hd⟩

end Sys2Proof.Machine
end

section
/-!
Runs that halt, against program order (R392, R396): the one-cycle simulation along the run, counting the bubbles and
the redirects.
-/

namespace Sys2Proof.Machine

section
variable {s t u : State} {n : Nat}

/-! ### Runs from their first cycle -/

theorem run_of_step (h : step s = .next u) (n : Nat) : Host.Core.run core (n + 1) s = Host.Core.run core n u := by
  simp only [Host.Core.run, show core.step s = .next u from h]

theorem run_succ_cases (h : Host.Core.run core (n + 1) s = .next t) :
    ∃ u, step s = .next u ∧ Host.Core.run core n u = .next t := by
  cases hs : step s with
  | next u => exact ⟨u, rfl, (run_of_step hs n).symm.trans h⟩
  | fault r | refused r =>
    simp only [Host.Core.run, show core.step s = _ from hs] at h
    cases h

theorem notFaulted_of_halted (h : s.status = .halted) : s.NotFaulted := by
  simp [State.NotFaulted, State.raised, h]

/-- A run that does not end in a fault stood at none when it began. -/
theorem notFaulted_of_run (h : Host.Core.run core n s = .next t) (ht : t.NotFaulted) : s.NotFaulted := by
  cases n with
  | zero => cases h; exact ht
  | succ n =>
    obtain ⟨u, hu, -⟩ := run_succ_cases h
    exact notFaulted_of_step hu

/-- CYC counts the cycles (R363, R365). -/
theorem cyc_of_run (h : Host.Core.run core n s = .next t) (ht : t.NotFaulted) :
    t.cyc = s.cyc + BitVec.ofNat 32 n := by
  induction n generalizing s with
  | zero => cases h; simp
  | succ n ih =>
    obtain ⟨u, hu, hrun⟩ := run_succ_cases h
    obtain ⟨hcyc, -⟩ := endOfCycleChecks s u hu (notFaulted_of_run hrun ht)
    rw [ih hrun, hcyc, BitVec.ofNat_add, BitVec.add_assoc, BitVec.add_comm (BitVec.ofNat 32 n)]
    rfl

theorem redirects_of_step (h : step s = .next u) (hu : u.NotFaulted) (n : Nat) :
    redirects (n + 1) s = (if u.ctx.branchTaken then 1 else 0) + redirects n u := by
  simp only [redirects, h, show u.raised = none from hu, and_true]

/-! ### The last cycle -/

/-- Only EOP halts the core (R49, R365). -/
theorem eop_of_halted (hI : Inv s) (h : step s = .next u) (hhalt : u.status = .halted) :
    ∃ imm, s.executing.instr = .eop imm := by
  have ended := ((stepKeepsTheInvariant s u hI h).halted hhalt).trans (congrArg Config.svcEop (step_cfg h))
  obtain ⟨-, -, hsvc, -⟩ := specialRegisterWriters s u h
  rcases hsvc with same | ⟨heop, -⟩
  · exact absurd (same.symm.trans ended) (hI.running (step_next_iff.1 ⟨u, h⟩)).1
  · revert heop
    cases s.executing.instr with
    | eop imm => exact fun _ => ⟨imm, rfl⟩
    | _ => exact nofun

/-- EOP leaves SVC_EOP in SVC and no write for Writeback, and does not redirect. -/
theorem after_eop {imm : Imm16} (hx : s.executing.instr = .eop imm) (h : step s = .next u) (hu : u.NotFaulted) :
    u.svc = s.cfg.svcEop ∧ writeback u = .ok none ∧ u.ctx.branchTaken = false := by
  obtain ⟨fe, wb, -, -, rfl⟩ := commit_of_eop hx h hu
  exact ⟨by simp, writeback_none (by simp [State.branched, Instr.wbWrites, Instr.unit, Instr.mnem, Mnem.unit]),
    by simp [State.branched]⟩

end

/-! ### The run -/

/-- In `e` instructions from `a` the interpreter comes to its end, in the architectural state of `t`, which has no write
pending. -/
structure EndsIn (c : Config) (a : Arch) (e : Nat) (t : State) : Prop where
  run       : ∃ pc, Arch.run c e a = some (t.arch pc)
  ended     : t.svc = c.svcEop
  committed : writeback t = .ok none

theorem EndsIn.after_step {c : Config} {a b : Arch} {e : Nat} {t : State} (h : EndsIn c b e t)
    (hs : Arch.step c a = some b) : EndsIn c a (e + 1) t := by
  obtain ⟨pc, hrun⟩ := h.run
  exact ⟨⟨pc, by rw [Arch.run, hs]; exact hrun⟩, h.ended, h.committed⟩

section
variable {s t u : State} {n bubbles : Nat} {a : Arch}

/-- A cycle under the invariant executes the interpreter's next instruction, or one of the bubbles ahead. -/
theorem tracks_cases {wb : Option (RegIdx × Word)} (hI : Inv s) (hio : s.cfg.InOrder) (hns : s.NoStoreAhead)
    (htracks : Tracks s bubbles a) (h : step s = .next u) (hu : u.NotFaulted) (hw : writeback u = .ok wb) :
    (bubbles = 0 ∧ ∃ b, Arch.step s.cfg a = some b ∧ Tracks u (if u.ctx.branchTaken then 3 else 0) b) ∨
    ∃ m, bubbles = m + 1 ∧ u.ctx.branchTaken = false ∧ Tracks u m a := by
  obtain ⟨-, -, he⟩ := Config.wf_registers_encoding hI.cfg
  have hsvc := (hI.running (step_next_iff.1 ⟨u, h⟩)).1
  obtain ⟨executed, bubble⟩ :=
    cycleTracksProgramOrder s u bubbles a wb hI.cfg hio hI.memForm hsvc hns htracks h hu hw
  cases bubbles with
  | zero => exact .inl ⟨rfl, executed rfl⟩
  | succ m =>
    obtain ⟨-, cycle, -⟩ := htracks.2.bubble_step he hio.2 h hu
    exact .inr ⟨m, rfl, cycle.branchTaken, bubble (Nat.succ_ne_zero m)⟩

/-- The cycle that halts has no bubble ahead and executes the interpreter's last instruction. -/
theorem endsIn_of_halting_cycle (hI : Inv s) (hio : s.cfg.InOrder) (hns : s.NoStoreAhead)
    (htracks : Tracks s bubbles a) (h : step s = .next t) (hhalt : t.status = .halted) :
    bubbles = 0 ∧ EndsIn s.cfg a 1 t ∧ t.ctx.branchTaken = false := by
  have ht := notFaulted_of_halted hhalt
  obtain ⟨imm, hx⟩ := eop_of_halted hI h hhalt
  obtain ⟨ended, committed, noRedirect⟩ := after_eop hx h ht
  rcases tracks_cases hI hio hns htracks h ht committed with ⟨h0, b, hb, harch, -⟩ | ⟨m, rfl, -, -⟩
  · have ends : EndsIn s.cfg b 0 t := ⟨⟨b.pc, congrArg some harch.symm⟩, ended, committed⟩
    exact ⟨h0, ends.after_step hb, noRedirect⟩
  · rw [htracks.2.executing_nop (Nat.succ_ne_zero m)] at hx
    cases hx

/-- A halted run that began on the path of the interpreter's program ends where the interpreter does, and takes one
cycle for each instruction, for each bubble ahead at its start and for each of the three after every redirect. -/
theorem endsIn_of_halted_run (hI : Inv s) (hio : s.cfg.InOrder) (hs : s.status = .running)
    (htracks : Tracks s bubbles a)
    (hns : ∀ k < n, ∀ u, Host.Core.run core k s = .next u → State.NoStoreAhead u)
    (hrun : Host.Core.run core n s = .next t) (hhalt : t.status = .halted) :
    ∃ e, EndsIn s.cfg a e t ∧ n = e + bubbles + 3 * redirects n s := by
  have ht := notFaulted_of_halted hhalt
  induction n generalizing s bubbles a with
  | zero => cases hrun; cases hs.symm.trans hhalt
  | succ n ih =>
    obtain ⟨u, h, hrest⟩ := run_succ_cases hrun
    have hu := notFaulted_of_run hrest ht
    have hns0 : s.NoStoreAhead := hns 0 (Nat.succ_pos n) s rfl
    rw [redirects_of_step h hu]
    cases n with
    | zero =>
      cases hrest
      obtain ⟨rfl, ends, noRedirect⟩ := endsIn_of_halting_cycle hI hio hns0 htracks h hhalt
      exact ⟨1, ends, by simp [noRedirect, redirects]⟩
    | succ n =>
      obtain ⟨v, hv, hlast⟩ := run_succ_cases hrest
      obtain ⟨-, -, wb, -, -, -, hw, -⟩ := step_commit hv (notFaulted_of_run hlast ht)
      have hcfg := step_cfg h
      have rest {bubbles' b} (path : Tracks u bubbles' b) := ih (stepKeepsTheInvariant s u hI h) (hcfg ▸ hio)
        (step_next_iff.1 ⟨v, hv⟩) path
        (fun k hk w hrun => hns (k + 1) (Nat.succ_lt_succ hk) w ((run_of_step h k).trans hrun)) hrest
      rw [hcfg] at rest
      rcases tracks_cases hI hio hns0 htracks h hu hw with ⟨rfl, b, hb, path⟩ | ⟨m, rfl, noRedirect, path⟩
      · obtain ⟨e, ends, hn⟩ := rest path
        refine ⟨e + 1, ends.after_step hb, ?_⟩
        split_ifs at hn ⊢ <;> omega
      · obtain ⟨e, ends, hn⟩ := rest path
        refine ⟨e, ends, ?_⟩
        rw [if_neg (by simp [noRedirect])]
        omega

end

/-! ### From reset -/

section
variable {c : Config} {image : List Word} {n : Nat} {t : State}

/-- Right after reset three bubbles are ahead of address 0 (R363). -/
theorem tracks_boot (fits : image.length ≤ c.memWords) :
    Tracks (State.boot c image) 3 ((State.boot c image).arch 0) := by
  rw [State.boot_fits fits]
  exact ⟨rfl, rfl, rfl, rfl, rfl⟩

/-- What R396 and R392 say of a halted run from reset, together. -/
theorem endsIn_of_halted_boot (hc : c.wf = true) (hio : c.InOrder) (fits : image.length ≤ c.memWords)
    (hns : ∀ k < n, ∀ u, Host.Core.run core k (State.boot c image) = .next u → State.NoStoreAhead u)
    (hrun : Host.Core.run core n (State.boot c image) = .next t) (hhalt : t.status = .halted) :
    ∃ e, EndsIn c ((State.boot c image).arch 0) e t ∧ n = e + 3 + 3 * redirects n (State.boot c image) := by
  have hcfg : (State.boot c image).cfg = c := by rw [State.boot_fits fits]; rfl
  have hstatus : (State.boot c image).status = .running := by rw [State.boot_fits fits]; rfl
  have ends := endsIn_of_halted_run (inv_boot hc image) (hcfg.symm ▸ hio) hstatus (tracks_boot fits) hns hrun hhalt
  rwa [hcfg] at ends

end

/-- Settles O57: the end of the run tracks the interpreter, with no write pending. -/
theorem haltedRunMatchesProgramOrder : Obligations.HaltedRunMatchesProgramOrder := by
  intro c image n t hc hio fits hns hrun hhalt
  obtain ⟨e, ⟨⟨pc, harch⟩, ended, committed⟩, -⟩ := endsIn_of_halted_boot hc hio fits hns hrun hhalt
  refine ⟨e, t.arch pc, harch, ended, ?_, rfl, rfl, rfl, rfl, rfl, rfl⟩
  simp [State.arch, committed]

/-- Settles O58: the count of the simulation, and CYC's from 0. -/
theorem haltedRunCycleCount : Obligations.HaltedRunCycleCount := by
  intro c image n t hc hio fits hns hrun hhalt
  obtain ⟨e, ⟨⟨pc, harch⟩, ended, -⟩, hn⟩ := endsIn_of_halted_boot hc hio fits hns hrun hhalt
  have hcyc := cyc_of_run hrun (notFaulted_of_halted hhalt)
  have hzero : (State.boot c image).cyc = 0 := by rw [State.boot_fits fits]; rfl
  exact ⟨e, t.arch pc, harch, ended, hn, by simp [hcyc, hzero]⟩

end Sys2Proof.Machine
end

section
/-!
The shapes the model chose where the spec leaves them open: what Execute leaves as it was (log entries 6 and 7), and
where a placed word stands (log entry 9); beside them sample words of the encoding.
-/

namespace Sys2Proof.Machine

/-- Settles O26: a fault changes STATUS only, and a completion stays in its frame. -/
theorem executeLeavesTheFrontEnd : Obligations.ExecuteLeavesTheFrontEnd := by
  intro i s
  rcases exec_cases s i with ⟨f, he⟩ | ⟨t, he, ht⟩
  · exact ⟨s.takeFault f, he, rfl, rfl, rfl, rfl, rfl, rfl, rfl, rfl⟩
  · exact ⟨t, he, ht.frame⟩

/-- Settles O6: each word is evaluated under the spec's own tables. -/
theorem sampleWordsDecode : Obligations.SampleWordsDecode := by
  unfold Obligations.SampleWordsDecode
  decide

/-- A word that Decode accepts stands alone in IQ, at the address the PC had; the registers, EW, the stack and STATUS
are not touched. -/
theorem State.placeWord_accepted {s : State} {w : Word} {i : Instr} (h : decode s.cfg.encoding w = .ok i) :
    let p := s.placeWord w
    (∃ r, p.iq = [r] ∧ r.instr = i ∧ r.fetchLoc = s.pc) ∧
      p.regs = s.regs ∧ p.ew = s.ew ∧ p.stack = s.stack ∧ p.status = s.status := by
  obtain ⟨hm, -, -⟩ := decode_ok_cases h
  simp [State.placeWord, hm, h]

/-- Settles O36: the placed record is the head of IQ, which a running core's cycle executes. -/
theorem placedWordRunsNext : Obligations.PlacedWordRunsNext := by
  intro s nbits w i hs hd p
  obtain ⟨⟨r, hq, hinstr, hloc⟩, hregs, hew, hstack, hstatus⟩ := State.placeWord_accepted hd
  have hx : p.executing = r := p.executing_cons r [] hq
  obtain ⟨headRuns, -⟩ := stepExecutesTheQueueHead p (hstatus.trans hs)
  refine ⟨hx ▸ hinstr, hx ▸ hloc, hregs, hew, hstack, ?_⟩
  exact hinstr ▸ headRuns r [] hq

end Sys2Proof.Machine
end
